-- ==== Sys2Proof/Word.lean ====
section
/-! DEFINITION. The plain words of the baya VM core (spec/00_scope.md R5, R7): bytes, nibbles, 12-bit
addresses, the four bytes of a slot, register ids. No arithmetic of an instruction stands here. -/

namespace Sys2Proof

/-- `u8` of R7: eight bits, read as an unsigned number. -/
abbrev Byte := BitVec 8

/-- A 4-bit field of an operand byte (R61). -/
abbrev Nibble := BitVec 4

/-- `u12` of R7: a 12-bit byte address or immediate id (R61, R67). -/
abbrev Addr12 := BitVec 12

/-- `SLOT` of R5: the bytes of one instruction, and of one sprite bitmap. -/
abbrev slotBytes : Nat := 4

/-- `MEM_SIZE` of R5. -/
abbrev memSize : Nat := 4096

/-- `NREGS` of R5. -/
abbrev numRegs : Nat := 12

/-- The id of one of the twelve registers (R20, R21). -/
abbrev RegId := Fin numRegs

/-- Four consecutive bytes of memory, the one at the lowest address first: the instruction bytes
`b0 b1 b2 b3` of R7, or the four rows of a sprite bitmap, top row first (R113). -/
structure Bytes4 where
  b0 : Byte
  b1 : Byte
  b2 : Byte
  b3 : Byte
deriving DecidableEq, Repr

end Sys2Proof
end

