-- ==== Sys2Proof/Syntax.lean ====
section
/-! DEFINITION. The instructions of the baya bytecode: one constructor per row of
spec/opcode_table.json (spec/30_encoding.md R71), with the operand fields of R63. -/

namespace Sys2Proof

/-- A register field of an encoding: four bits, of which 0..11 name a register (R61, R66). -/
abbrev RegField := Nibble

/-- A key field of an encoding: four bits, of which 0..4 name a key (R61, R72). -/
abbrev KeyField := Nibble

/-- The five keys, in the order of R72. -/
inductive Key where
  | action
  | up
  | down
  | left
  | right
deriving DecidableEq, Repr

/-- The 28 instructions. `r` is the first (destination) register field and `q` the second one, the
`s` of R63; `n` is the 8-bit literal (R68); `addr` the 12-bit address or immediate id (R67). -/
inductive Instr where
  /-- HALT, R96 -/
  | halt
  /-- JMP addr, R97 -/
  | jmp (addr : Addr12)
  /-- PRINT r, R110 -/
  | print (r : RegField)
  /-- CLEAR n, R112 -/
  | clear (n : Byte)
  /-- COLOR n, R111 -/
  | color (n : Byte)
  /-- SPRA addr, R113 -/
  | spra (addr : Addr12)
  /-- SPRI i, R114 -/
  | spri (addr : Addr12)
  /-- SET r, s, R131 -/
  | set (r q : RegField)
  /-- ADD r, s, R132 -/
  | add (r q : RegField)
  /-- SUB r, s, R133 -/
  | sub (r q : RegField)
  /-- MUL r, s, R134 -/
  | mul (r q : RegField)
  /-- DIV r, s, R135 -/
  | div (r q : RegField)
  /-- MOD r, s, R136 -/
  | mod (r q : RegField)
  /-- AND r, s, R137 -/
  | and (r q : RegField)
  /-- OR r, s, R138 -/
  | or (r q : RegField)
  /-- XOR r, s, R139 -/
  | xor (r q : RegField)
  /-- SETI r, n, R140 -/
  | seti (r : RegField) (n : Byte)
  /-- ADDI r, n, R141 -/
  | addi (r : RegField) (n : Byte)
  /-- RAND r, n, R142 -/
  | rand (r : RegField) (n : Byte)
  /-- IFEQ r, s, R152 -/
  | ifeq (r q : RegField)
  /-- IFNE r, s, R153 -/
  | ifne (r q : RegField)
  /-- IFLT r, s, R154 -/
  | iflt (r q : RegField)
  /-- IFLE r, s, R155 -/
  | ifle (r q : RegField)
  /-- IFGT r, s, R156 -/
  | ifgt (r q : RegField)
  /-- IFGE r, s, R157 -/
  | ifge (r q : RegField)
  /-- IFEQI r, n, R158 -/
  | ifeqi (r : RegField) (n : Byte)
  /-- IFNEI r, n, R159 -/
  | ifnei (r : RegField) (n : Byte)
  /-- KEY k, R160 -/
  | key (k : KeyField)
deriving DecidableEq, Repr

end Sys2Proof
end

