-- ==== Sys2Proof/Config.lean ====
section
/-! DEFINITION. What an implementation fixes (the open parameters of spec/00_scope.md R6) and what
nobody fixes (the host's answers, spec/60_exceptions.md R186). -/

namespace Sys2Proof

/-- The four open parameters of R6. They never change while the core runs. `State.cfg` holds them, so
that a statement about every state is a statement about every implementation (assumption 1). -/
structure Config where
  /-- `TICK_REG` (D4): the register HALT increments; `none` means no register is. -/
  tickReg : Option RegId
  /-- `PALETTE_SIZE` (D23): how many palette entries there are, 1..256. -/
  paletteSize : Nat
  /-- `WATCHDOG_LIMIT` (D22): how many instructions one run may complete; `none` means no watchdog. -/
  watchdogLimit : Option Nat
  /-- `SPRITE_IMM_MAP` (D13), as plain data: the ids that are not mapped to themselves, each with its
  byte address; the first entry of an id counts. The empty list is the identity (assumption 2). -/
  spriteImm : List (Addr12 × Addr12)
deriving DecidableEq, Repr

/-- The reference configuration of D37: the defaults of R6, with `PALETTE_SIZE = 16`.
DESIGN CHOICE (assumption 1): R6 leaves `PALETTE_SIZE` open; unsafe for a claim that needs the 16. -/
def Config.reference : Config where
  tickReg := none
  paletteSize := 16
  watchdogLimit := none
  spriteImm := []

/-- The bound R6 gives the palette's size. -/
abbrev Config.paletteOk (c : Config) : Prop := 1 ≤ c.paletteSize ∧ c.paletteSize ≤ 256

/-- Free value: whether key `k` is down when the host is asked for the `i`-th time (R160, D17). -/
opaque Config.freeKey : Nat → Key → Bool

/-- Free value: the byte from which the host's answer to the `i`-th request is drawn when it is a
`random` query (R142, D16); the bound is applied where it is read. -/
opaque Config.freeRandom : Nat → Byte

/-- Free value: whether the host sends `tick` at the `i`-th chance it has (R186 item 3). -/
opaque Config.freeTick : Nat → Bool

end Sys2Proof
end

