-- ==== Sys2Proof/Machine/State.lean ====
section
/-! DEFINITION. Everything the spec gives the machine (spec/10_state.md R20 to R33), the parameters of
R6, and the host's side of the interface (spec/60_exceptions.md R185), as plain data. -/

namespace Sys2Proof.Machine

/-- Memory: the listed bytes by address, every other byte 0 (R42, D29; assumption 7). -/
abbrev Memory := List Host.Cell

/-- The run status `RS` (R28). -/
inductive RunStatus where
  | idle
  | running
  | faulted
deriving DecidableEq, Repr

/-- The nine fault causes of R170. -/
inductive FaultCause where
  /-- code 1: the fetch would leave memory -/
  | pcRange
  /-- code 2: the pc is not a multiple of 4 -/
  | pcMisaligned
  /-- code 3: the opcode byte is 0x0F or more -/
  | illegalOpcode
  /-- code 4: a filler bit, a register, operation, comparison or key id out of range -/
  | illegalOperand
  /-- code 5: DIV or MOD by a register holding 0 -/
  | divZero
  /-- code 6: RAND with bound 0 -/
  | randZero
  /-- code 7: CLEAR or COLOR with an index at or above `PALETTE_SIZE` -/
  | paletteRange
  /-- code 8: a sprite bitmap that leaves memory -/
  | spriteRange
  /-- code 9: the run has completed `WATCHDOG_LIMIT` instructions -/
  | watchdog
deriving DecidableEq, Repr

/-- What the fault record `FR` holds (R29). -/
structure FaultRecord where
  cause : FaultCause
  fpc : Nat
deriving DecidableEq, Repr

/-- One transaction between the core and the host (R185), with the host's answer where it gives one. -/
inductive HostEvent where
  /-- the host's `tick`, logged when it starts a run (R90) -/
  | tick
  | print (v : Byte)
  | clear (n : Byte)
  | setColor (n : Byte)
  | sprite (x y c : Byte) (rows : Bytes4)
  /-- the query `key(k)` and its answer -/
  | key (k : Key) (down : Bool)
  /-- the query `random(n)` and its answer -/
  | random (n v : Byte)
  | done
  | fault (c : FaultCause) (fpc : Nat)
deriving DecidableEq, Repr

/-- The host's answers: those already settled, oldest first, one list for each kind of question, and
how many questions it has been asked. Where a list is empty the answer is a free value of Config,
applied to `asked` (R186 item 3; assumptions 3, 4 and 5). The MODEL's own data. -/
structure HostSide where
  ticks : List Bool
  keys : List Bool
  randoms : List Byte
  asked : Nat
deriving DecidableEq, Repr

/-- The machine. -/
structure State where
  /-- `x[0]`..`x[11]` (R20, R21) -/
  regs : Vector Byte numRegs
  /-- the program counter, an exact natural number (R24) -/
  pc : Nat
  /-- the run status (R28) -/
  rs : RunStatus
  /-- the fault record (R29) -/
  fr : Option FaultRecord
  /-- the instruction count (R30) -/
  ic : Nat
  /-- the image (R31, R40) -/
  mem : Memory
  /-- the parameters of R6 (assumption 1) -/
  cfg : Config
  /-- what has passed between the core and the host, oldest first (R185; assumption 10) -/
  events : List HostEvent
  /-- the host's answers (R186; assumption 3) -/
  host : HostSide
deriving DecidableEq, Repr

/-- Why the MODEL stops. The nine faults of the core are not here: the core enters FAULTED and the
model goes on (R176; assumption 6). -/
inductive Fault where
  /-- Raised by `MemRead` where R9 leaves it undefined, on bytes outside memory. Safe: every rule checks
  the range first, so no step reaches it. -/
  | readOutsideMemory (addr : Nat)
deriving DecidableEq, Repr

/-- Why the model has no meaning for an instruction. -/
inductive Refusal where
  /-- Raised by an arm of `exec` for an instruction without a meaning. Safe: nothing can be proved
  about it. No arm raises it now. -/
  | notModelled (mnemonic : String)
deriving DecidableEq, Repr

/-- The machine right after power-on reset in the configuration `c` (R33, R200): no image is loaded
and the host has been asked nothing (assumptions 7 and 11). -/
def State.powerOn (c : Config) : State where
  regs := Vector.replicate numRegs 0#8
  pc := 0
  rs := .idle
  fr := none
  ic := 0
  mem := []
  cfg := c
  events := []
  host := ⟨[], [], [], 0⟩

/-- The machine right after power-on reset, in the reference configuration of D37 (assumption 1). -/
def State.reset : State := State.powerOn Config.reference

end Sys2Proof.Machine
end

