-- ==== Sys2Proof/Machine/Memory.lean ====
section
/-! DEFINITION. Memory: its canonical form, reading (spec/20_memory.md R40, R47; spec/00_scope.md R9),
and the loading of an image from outside the core (spec/70_reset_and_hazards.md R205). -/

namespace Sys2Proof.Machine

/-- What an address that is not listed reads as (R42, D29; assumption 7). -/
def unlistedByte : Byte := 0#8

/-- The addresses of `m` rise strictly, lie in `lo`..4095, and no listed byte is an unlisted one's. -/
def memoryWfFrom (lo : Nat) : Memory → Bool
  | [] => true
  | (a, v) :: rest => decide (lo ≤ a) && decide (a < memSize) && v != unlistedByte && memoryWfFrom (a + 1) rest

/-- The canonical form of memory. -/
def Memory.wf (m : Memory) : Bool := memoryWfFrom 0 m

/-- `mem[a]` (R31). -/
def readByte : Memory → Nat → Byte
  | [], _ => unlistedByte
  | (k, v) :: rest, a => if k = a then v else readByte rest a

/-- Place one byte. No instruction does this (R41): it is how the environment places an image (R205). -/
def writeByte : Memory → Nat → Byte → Memory
  | [], a, v => if v = unlistedByte then [] else [(a, v)]
  | (k, w) :: rest, a, v =>
    if a < k then
      if v = unlistedByte then (k, w) :: rest else (a, v) :: (k, w) :: rest
    else if a = k then
      if v = unlistedByte then rest else (a, v) :: rest
    else (k, w) :: writeByte rest a v

/-- `MemRead(a, 4)` of R9, defined only when `a + 4 ≤ 4096`. -/
def memRead4 (m : Memory) (a : Nat) : Option Bytes4 :=
  if a + slotBytes ≤ memSize then
    some ⟨readByte m a, readByte m (a + 1), readByte m (a + 2), readByte m (a + 3)⟩
  else none

/-- Place four bytes at `a`..`a + 3`. -/
def placeSlot (m : Memory) (a : Nat) (b : Bytes4) : Memory :=
  writeByte (writeByte (writeByte (writeByte m a b.b0) (a + 1) b.b1) (a + 2) b.b2) (a + 3) b.b3

/-- Place the slots of an image from address `a` upward, as the compiler laid them out (R42, R205). -/
def placeImage (m : Memory) (a : Nat) : List Bytes4 → Memory
  | [] => m
  | b :: rest => placeImage (placeSlot m a b) (a + slotBytes) rest

end Sys2Proof.Machine
end

