-- ==== Sys2Proof/Machine/Ops.lean ====
section
/-! DEFINITION. The shared operations over State: registers, the pc, the host interface, fault entry,
run start, power-on reset. -/

namespace Sys2Proof.Machine

/-- The three outcomes of a step of this machine. -/
abbrev Out := Host.Outcome State Fault Refusal

/-- Read `x[q]` (R9, R20). -/
def State.readReg (s : State) (q : RegId) : Byte := s.regs[q]

/-- `x[q] <- v` (R9). No register is hard-wired (R20). -/
def State.writeReg (s : State) (q : RegId) (v : Byte) : State :=
  { s with regs := s.regs.set q v }

/-- Register 0: the x coordinate of a sprite draw (R21). -/
def xReg : RegId := 0

/-- Register 1: the y coordinate of a sprite draw (R21). -/
def yReg : RegId := 1

/-- Register 11, the draw-color register (R22). -/
def drawColor : RegId := 11

/-- `Host.emit(e)` (R9): hand the host the event `e`. -/
def State.emit (s : State) (e : HostEvent) : State :=
  { s with events := s.events ++ [e] }

/-- `pc <- a + 4` (R94), exact (R48). -/
def State.advance (s : State) : State := { s with pc := s.pc + slotBytes }

/-- What every conditional does with its condition (R150): the next slot, or the one after it. -/
def State.skipUnless (s : State) (cond : Bool) : State :=
  { s with pc := if cond then s.pc + slotBytes else s.pc + 2 * slotBytes }

/-- The code of a cause (R170). -/
def FaultCause.code : FaultCause → Nat
  | .pcRange => 1
  | .pcMisaligned => 2
  | .illegalOpcode => 3
  | .illegalOperand => 4
  | .divZero => 5
  | .randZero => 6
  | .paletteRange => 7
  | .spriteRange => 8
  | .watchdog => 9

/-- `raise Fault(c)`: fault entry (R176). There is no return from it (R177). -/
def State.raise (s : State) (c : FaultCause) : State :=
  { s with
    rs := .faulted
    fr := some ⟨c, s.pc⟩
    events := s.events ++ [.fault c s.pc] }

/-- The host's answer to `key(k)`: settled, or free (R160, D17; assumption 3). -/
def State.keyAnswer (s : State) (k : Key) : Bool :=
  match s.host.keys with
  | b :: _ => b
  | [] => Config.freeKey s.host.asked k

/-- `Host.key(k)` (R9), after its answer has been taken. -/
def State.afterKey (s : State) (k : Key) : State :=
  { s with
    host := { s.host with keys := s.host.keys.tail, asked := s.host.asked + 1 }
    events := s.events ++ [.key k (s.keyAnswer k)] }

/-- The host's answer to `random(n)`, settled or free, below the bound for `n ≠ 0` (R142, R186 item 2;
assumptions 3 and 4). -/
def State.randomAnswer (s : State) (n : Byte) : Byte :=
  match s.host.randoms with
  | v :: _ => v % n
  | [] => Config.freeRandom s.host.asked % n

/-- `Host.random(n)` (R9), after its answer has been taken. -/
def State.afterRandom (s : State) (n : Byte) : State :=
  { s with
    host := { s.host with randoms := s.host.randoms.tail, asked := s.host.asked + 1 }
    events := s.events ++ [.random n (s.randomAnswer n)] }

/-- Whether the host sends `tick` at this chance, settled or free (R186 item 3; assumption 5). -/
def State.tickComes (s : State) : Bool :=
  match s.host.ticks with
  | b :: _ => b
  | [] => Config.freeTick s.host.asked

/-- The chance to send `tick` has passed. -/
def State.afterTickChance (s : State) : State :=
  { s with host := { s.host with ticks := s.host.ticks.tail, asked := s.host.asked + 1 } }

/-- The `tick` request (R90): it starts a run in IDLE, and nothing in FAULTED (R177) or RUNNING (where
the host cannot send it, D40). -/
def State.tick (s : State) : State :=
  match s.rs with
  | .idle => { s with pc := 0, ic := 0, rs := .running, events := s.events ++ [.tick] }
  | .running => s
  | .faulted => s

/-- What happens next while no run is in progress: the host sends `tick` or the core waits on (R187). -/
def State.await (s : State) : State :=
  if s.tickComes then s.afterTickChance.tick else s.afterTickChance

/-- Power-on reset (R200): the only way out of FAULTED (R177). It is the environment's doing, not a
step; the image, the parameters and the host's side are not among what R200 sets (assumption 11). -/
def State.powerOnReset (s : State) : State :=
  { s with
    regs := Vector.replicate numRegs 0#8
    pc := 0
    rs := .idle
    fr := none
    ic := 0 }

/-- The watchdog condition (R91). -/
def State.watchdogExpired (s : State) : Bool :=
  match s.cfg.watchdogLimit with
  | none => false
  | some limit => decide (limit ≤ s.ic)

/-- `IC <- IC + 1` after an instruction's rule that completed without a fault (R93). -/
def State.retire (s : State) : State :=
  if s.rs = .faulted then s else { s with ic := s.ic + 1 }

/-- The address `SPRITE_IMM_MAP` gives an immediate id (R6, R114, D13; assumption 2). -/
def spriteImmMap : List (Addr12 × Addr12) → Addr12 → Addr12
  | [], i => i
  | (k, a) :: rest, i => if k = i then a else spriteImmMap rest i

/-- Both sprite instructions from `A` on (R113, R114): the range check, the four rows, the request. -/
def drawSprite (a : Nat) (s : State) : Out :=
  if a + slotBytes > memSize then .next (s.raise .spriteRange)
  else
    match memRead4 s.mem a with
    | some rows =>
      .next (s.emit (.sprite (s.readReg xReg) (s.readReg yReg) (s.readReg drawColor) rows)).advance
    | none => .fault (.readOutsideMemory a)

/-- The palette check of CLEAR and COLOR (R111, R112), and the rest of the rule where it holds. -/
def withPalette (n : Byte) (s : State) (rest : State) : Out :=
  .next (if n.toNat ≥ s.cfg.paletteSize then s.raise .paletteRange else rest)

end Sys2Proof.Machine
end

