-- ==== Sys2Proof/Machine/Operands.lean ====
section
/-! DEFINITION. The operand forms: a register field and a key field as what they name
(spec/30_encoding.md R65, R66, R72), and the shared shapes of the register operations
(spec/42_register_ops.md R130). Literals and addresses (R67, R68) are used as they stand. -/

namespace Sys2Proof.Machine

/-- The register a field names; `none` for 12..15 (R66). -/
def regOf (f : RegField) : Option RegId :=
  if h : f.toNat < numRegs then some ⟨f.toNat, h⟩ else none

/-- The field that names a register. -/
def regField (q : RegId) : RegField := BitVec.ofNat 4 q.val

/-- The key a field names; `none` for 5..15 (R72). -/
def keyOf (f : KeyField) : Option Key :=
  match f.toNat with
  | 0 => some .action
  | 1 => some .up
  | 2 => some .down
  | 3 => some .left
  | 4 => some .right
  | _ => none

/-- The field that names a key (R72). -/
def keyField : Key → KeyField
  | .action => 0#4
  | .up => 1#4
  | .down => 2#4
  | .left => 3#4
  | .right => 4#4

/-- Run `body` on the register a field names. A field that names none is the illegal pattern of R73
item 3, which faults when it is executed; the decoder never gives one (assumption 9). -/
def withReg (f : RegField) (s : State) (body : RegId → Out) : Out :=
  match regOf f with
  | some q => body q
  | none => .next (s.raise .illegalOperand)

/-- Run `body` on the key a field names; R73 item 6 otherwise, as for a register. -/
def withKey (f : KeyField) (s : State) (body : Key → Out) : Out :=
  match keyOf f with
  | some k => body k
  | none => .next (s.raise .illegalOperand)

/-- `OP r, s` without a check (R130): both operands are read before the destination is written. -/
def regRegOp (op : Byte → Byte → Byte) (r q : RegField) (s : State) : Out :=
  withReg r s fun d => withReg q s fun e =>
    .next (s.writeReg d (op (s.readReg d) (s.readReg e))).advance

/-- DIV and MOD (R135, R136): DIV_ZERO on a zero divisor, before any effect. -/
def divideOp (op : Byte → Byte → Byte) (r q : RegField) (s : State) : Out :=
  withReg r s fun d => withReg q s fun e =>
    .next (if s.readReg e = 0#8 then s.raise .divZero
      else (s.writeReg d (op (s.readReg d) (s.readReg e))).advance)

/-- A register-literal operation without a check (R140, R141). -/
def regLitOp (op : Byte → Byte → Byte) (r : RegField) (n : Byte) (s : State) : Out :=
  withReg r s fun d => .next (s.writeReg d (op (s.readReg d) n)).advance

end Sys2Proof.Machine
end

