-- ==== Sys2Proof/Machine/Flags.lean ====
section
/-! DEFINITION. The hardware has no flags (spec/10_state.md R27): a conditional evaluates its condition
and acts on it at once. This file holds the conditions of spec/30_encoding.md R70, unsigned
(spec/00_scope.md R8), and the shared shapes of the conditionals (spec/43_conditionals.md R150). -/

namespace Sys2Proof.Machine

/-- The six comparisons of R70. -/
inductive Comparison where
  | eq
  | ne
  | lt
  | le
  | gt
  | ge
deriving DecidableEq, Repr

/-- The condition column of R70, over the unsigned values (R8). -/
def holds (c : Comparison) (p q : Byte) : Bool :=
  match c with
  | .eq => p.toNat == q.toNat
  | .ne => p.toNat != q.toNat
  | .lt => decide (p.toNat < q.toNat)
  | .le => decide (p.toNat ≤ q.toNat)
  | .gt => decide (p.toNat > q.toNat)
  | .ge => decide (p.toNat ≥ q.toNat)

/-- A register-register conditional (R150, R152 to R157). -/
def skipOnRegs (c : Comparison) (r q : RegField) (s : State) : Out :=
  withReg r s fun d => withReg q s fun e =>
    .next (s.skipUnless (holds c (s.readReg d) (s.readReg e)))

/-- A register-literal conditional (R150, R158, R159). -/
def skipOnLit (c : Comparison) (r : RegField) (n : Byte) (s : State) : Out :=
  withReg r s fun d => .next (s.skipUnless (holds c (s.readReg d) n))

end Sys2Proof.Machine
end

