-- ==== Sys2Proof/Machine/Conditionals.lean ====
section
/-! DEFINITION. The conditional skip instructions (spec/43_conditionals.md R152 to R160). -/

namespace Sys2Proof.Machine

/-- R152. -/
def execIfeq (r q : RegField) (s : State) : Out := skipOnRegs .eq r q s

/-- R153. -/
def execIfne (r q : RegField) (s : State) : Out := skipOnRegs .ne r q s

/-- R154. -/
def execIflt (r q : RegField) (s : State) : Out := skipOnRegs .lt r q s

/-- R155. -/
def execIfle (r q : RegField) (s : State) : Out := skipOnRegs .le r q s

/-- R156. -/
def execIfgt (r q : RegField) (s : State) : Out := skipOnRegs .gt r q s

/-- R157. -/
def execIfge (r q : RegField) (s : State) : Out := skipOnRegs .ge r q s

/-- R158. -/
def execIfeqi (r : RegField) (n : Byte) (s : State) : Out := skipOnLit .eq r n s

/-- R159. -/
def execIfnei (r : RegField) (n : Byte) (s : State) : Out := skipOnLit .ne r n s

/-- R160: a fresh answer for each test (D17). -/
def execKey (k : KeyField) (s : State) : Out :=
  withKey k s fun key => .next ((s.afterKey key).skipUnless (s.keyAnswer key))

end Sys2Proof.Machine
end

