-- ==== Sys2Proof/Machine/Control.lean ====
section
/-! DEFINITION. HALT and JMP (spec/40_loop_and_control.md R96, R97). -/

namespace Sys2Proof.Machine

/-- The automatic tick increment (R96, R180): nothing with `TICK_REG = none`. -/
def State.countTick (s : State) : State :=
  match s.cfg.tickReg with
  | none => s
  | some t => s.writeReg t (s.readReg t + 1#8)

/-- `RS <- IDLE` (R96). -/
def State.endRun (s : State) : State := { s with rs := .idle }

/-- R96. -/
def execHalt (s : State) : Out := .next (s.countTick.advance.endRun.emit .done)

/-- R97. The target is checked at the next fetch, not here (R171). -/
def execJmp (addr : Addr12) (s : State) : Out := .next { s with pc := addr.toNat }

end Sys2Proof.Machine
end

