-- ==== Sys2Proof/Machine/HostIo.lean ====
section
/-! DEFINITION. PRINT, COLOR, CLEAR, SPRA and SPRI (spec/41_host_io.md R110 to R114). -/

namespace Sys2Proof.Machine

/-- R110. -/
def execPrint (r : RegField) (s : State) : Out :=
  withReg r s fun d => .next (s.emit (.print (s.readReg d))).advance

/-- R111: it writes register 11 and makes the request (D24). -/
def execColor (n : Byte) (s : State) : Out :=
  withPalette n s ((s.writeReg drawColor n).emit (.setColor n)).advance

/-- R112: no register is written. -/
def execClear (n : Byte) (s : State) : Out := withPalette n s (s.emit (.clear n)).advance

/-- R113. -/
def execSpra (addr : Addr12) (s : State) : Out := drawSprite addr.toNat s

/-- R114. -/
def execSpri (addr : Addr12) (s : State) : Out :=
  drawSprite (spriteImmMap s.cfg.spriteImm addr).toNat s

end Sys2Proof.Machine
end

