-- ==== Sys2Proof/Machine/RegisterOps.lean ====
section
/-! DEFINITION. The register operations (spec/42_register_ops.md R131 to R142). A byte's `+`, `-`, `*`
are those of R8 mod 256, and `/`, `%` the unsigned truncating ones (R143). -/

namespace Sys2Proof.Machine

/-- R131. -/
def execSet (r q : RegField) (s : State) : Out := regRegOp (fun _ b => b) r q s

/-- R132. -/
def execAdd (r q : RegField) (s : State) : Out := regRegOp (fun a b => a + b) r q s

/-- R133. -/
def execSub (r q : RegField) (s : State) : Out := regRegOp (fun a b => a - b) r q s

/-- R134. -/
def execMul (r q : RegField) (s : State) : Out := regRegOp (fun a b => a * b) r q s

/-- R135. -/
def execDiv (r q : RegField) (s : State) : Out := divideOp (fun a b => a / b) r q s

/-- R136. -/
def execMod (r q : RegField) (s : State) : Out := divideOp (fun a b => a % b) r q s

/-- R137. -/
def execAnd (r q : RegField) (s : State) : Out := regRegOp (fun a b => a &&& b) r q s

/-- R138. -/
def execOr (r q : RegField) (s : State) : Out := regRegOp (fun a b => a ||| b) r q s

/-- R139. -/
def execXor (r q : RegField) (s : State) : Out := regRegOp (fun a b => a ^^^ b) r q s

/-- R140. -/
def execSeti (r : RegField) (n : Byte) (s : State) : Out := regLitOp (fun _ b => b) r n s

/-- R141. -/
def execAddi (r : RegField) (n : Byte) (s : State) : Out := regLitOp (fun a b => a + b) r n s

/-- R142: RAND_ZERO on an empty range, before the draw. -/
def execRand (r : RegField) (n : Byte) (s : State) : Out :=
  withReg r s fun d =>
    .next (if n = 0#8 then s.raise .randZero
      else ((s.afterRandom n).writeReg d (s.randomAnswer n)).advance)

end Sys2Proof.Machine
end

