-- ==== Sys2Proof/Machine/Dispatch.lean ====
section
/-! DEFINITION. One arm per instruction (spec/30_encoding.md R71). -/

namespace Sys2Proof.Machine

def exec (i : Instr) (s : State) : Host.Outcome State Fault Refusal :=
  match i with
  | .halt => Sys2Proof.Machine.execHalt s
  | .jmp addr => Sys2Proof.Machine.execJmp addr s
  | .print r => Sys2Proof.Machine.execPrint r s
  | .clear n => Sys2Proof.Machine.execClear n s
  | .color n => Sys2Proof.Machine.execColor n s
  | .spra addr => Sys2Proof.Machine.execSpra addr s
  | .spri addr => Sys2Proof.Machine.execSpri addr s
  | .set r q => Sys2Proof.Machine.execSet r q s
  | .add r q => Sys2Proof.Machine.execAdd r q s
  | .sub r q => Sys2Proof.Machine.execSub r q s
  | .mul r q => Sys2Proof.Machine.execMul r q s
  | .div r q => Sys2Proof.Machine.execDiv r q s
  | .mod r q => Sys2Proof.Machine.execMod r q s
  | .and r q => Sys2Proof.Machine.execAnd r q s
  | .or r q => Sys2Proof.Machine.execOr r q s
  | .xor r q => Sys2Proof.Machine.execXor r q s
  | .seti r n => Sys2Proof.Machine.execSeti r n s
  | .addi r n => Sys2Proof.Machine.execAddi r n s
  | .rand r n => Sys2Proof.Machine.execRand r n s
  | .ifeq r q => Sys2Proof.Machine.execIfeq r q s
  | .ifne r q => Sys2Proof.Machine.execIfne r q s
  | .iflt r q => Sys2Proof.Machine.execIflt r q s
  | .ifle r q => Sys2Proof.Machine.execIfle r q s
  | .ifgt r q => Sys2Proof.Machine.execIfgt r q s
  | .ifge r q => Sys2Proof.Machine.execIfge r q s
  | .ifeqi r n => Sys2Proof.Machine.execIfeqi r n s
  | .ifnei r n => Sys2Proof.Machine.execIfnei r n s
  | .key k => Sys2Proof.Machine.execKey k s

end Sys2Proof.Machine
end

