-- ==== Sys2Proof/WellFormed.lean ====
section
/-! DEFINITION. Which operand fields the encoding admits (spec/30_encoding.md R66, R72, R73 items 3
and 6). Literals and addresses admit every value (R67, R68). -/

namespace Sys2Proof

/-- A register field is legal when it is 0..11 (R66). -/
def regFieldOk (r : RegField) : Bool := r.toNat < numRegs

/-- A key field is legal when it is 0..4 (R72). -/
def keyFieldOk (k : KeyField) : Bool := k.toNat < 5

/-- Every field of the instruction holds a value the encoding admits. -/
def Instr.wellFormed : Instr → Bool
  | .halt => true
  | .jmp _ => true
  | .print r => regFieldOk r
  | .clear _ => true
  | .color _ => true
  | .spra _ => true
  | .spri _ => true
  | .set r q => regFieldOk r && regFieldOk q
  | .add r q => regFieldOk r && regFieldOk q
  | .sub r q => regFieldOk r && regFieldOk q
  | .mul r q => regFieldOk r && regFieldOk q
  | .div r q => regFieldOk r && regFieldOk q
  | .mod r q => regFieldOk r && regFieldOk q
  | .and r q => regFieldOk r && regFieldOk q
  | .or r q => regFieldOk r && regFieldOk q
  | .xor r q => regFieldOk r && regFieldOk q
  | .seti r _ => regFieldOk r
  | .addi r _ => regFieldOk r
  | .rand r _ => regFieldOk r
  | .ifeq r q => regFieldOk r && regFieldOk q
  | .ifne r q => regFieldOk r && regFieldOk q
  | .iflt r q => regFieldOk r && regFieldOk q
  | .ifle r q => regFieldOk r && regFieldOk q
  | .ifgt r q => regFieldOk r && regFieldOk q
  | .ifge r q => regFieldOk r && regFieldOk q
  | .ifeqi r _ => regFieldOk r
  | .ifnei r _ => regFieldOk r
  | .key k => keyFieldOk k

end Sys2Proof
end

