-- ==== Sys2Proof/Decode.lean ====
section
/-! DEFINITION. The decoder of spec/30_encoding.md R75, total on any four bytes, and the encoder of
R63 and R71. -/

namespace Sys2Proof

/-- The seven formats of R63. -/
inductive Format where
  | n
  | a
  | r
  | l
  | rfr
  | rl
  | k
deriving DecidableEq, Repr

/-- The two causes for which four bytes are no instruction (R73). -/
inductive Illegal where
  | opcode
  | operand
deriving DecidableEq, Repr

/-- What four bytes decode to (R73, R75). -/
inductive Decoded where
  | instr (i : Instr)
  | illegal (c : Illegal)
deriving DecidableEq, Repr

/-- Bits [7:4] of an operand byte. -/
def highNibble (b : Byte) : Nibble := b.extractLsb' 4 4

/-- Bits [3:0] of an operand byte, where its field stands (R62). -/
def lowNibble (b : Byte) : Nibble := b.extractLsb' 0 4

/-- An operand byte that holds the field `x`: bits [7:4] are 0 (R62). -/
def operandByte (x : Nibble) : Byte := 0#4 ++ x

/-- The 8-bit literal, high nibble in `b2` (R68). -/
def literalField (b : Bytes4) : Byte := lowNibble b.b2 ++ lowNibble b.b3

/-- The 12-bit address or immediate, most significant nibble in `b1` (R67). -/
def addrField (b : Bytes4) : Addr12 := lowNibble b.b1 ++ lowNibble b.b2 ++ lowNibble b.b3

/-- The format column of R71; `none` for 0x0F..0xFF. -/
def formatOf (b0 : Byte) : Option Format :=
  match b0.toNat with
  | 0x00 => some .n
  | 0x01 => some .a
  | 0x02 => some .r
  | 0x03 => some .l
  | 0x04 => some .l
  | 0x05 => some .a
  | 0x06 => some .a
  | 0x07 => some .rfr
  | 0x08 => some .rl
  | 0x09 => some .rl
  | 0x0A => some .rl
  | 0x0B => some .rfr
  | 0x0C => some .rl
  | 0x0D => some .rl
  | 0x0E => some .k
  | _ => none

/-- An operand byte has no bit set outside its field: none in [7:4], and none at all in a byte the
format does not use (R62, R73 items 1 and 2). -/
def fillerClear (used : Bool) (b : Byte) : Bool :=
  highNibble b == 0#4 && (used || lowNibble b == 0#4)

/-- No filler bit of the slot is set, by the formats of R63. -/
def fillersClear (f : Format) (b : Bytes4) : Bool :=
  match f with
  | .n => fillerClear false b.b1 && fillerClear false b.b2 && fillerClear false b.b3
  | .a => fillerClear true b.b1 && fillerClear true b.b2 && fillerClear true b.b3
  | .r => fillerClear true b.b1 && fillerClear false b.b2 && fillerClear false b.b3
  | .l => fillerClear false b.b1 && fillerClear true b.b2 && fillerClear true b.b3
  | .rfr => fillerClear true b.b1 && fillerClear true b.b2 && fillerClear true b.b3
  | .rl => fillerClear true b.b1 && fillerClear true b.b2 && fillerClear true b.b3
  | .k => fillerClear true b.b1 && fillerClear false b.b2 && fillerClear false b.b3

/-- The operation ids of opcode 0x07 (R69). -/
def regOpOf (f : Nibble) (r q : RegField) : Option Instr :=
  match f.toNat with
  | 0 => some (.set r q)
  | 1 => some (.add r q)
  | 2 => some (.sub r q)
  | 3 => some (.mul r q)
  | 4 => some (.div r q)
  | 5 => some (.mod r q)
  | 6 => some (.and r q)
  | 7 => some (.or r q)
  | 8 => some (.xor r q)
  | _ => none

/-- The comparison ids of opcode 0x0B (R70). -/
def conditionalOf (f : Nibble) (r q : RegField) : Option Instr :=
  match f.toNat with
  | 0 => some (.ifeq r q)
  | 1 => some (.ifne r q)
  | 2 => some (.iflt r q)
  | 3 => some (.ifle r q)
  | 4 => some (.ifgt r q)
  | 5 => some (.ifge r q)
  | _ => none

/-- The instruction of R71 for the opcode byte and, in opcodes 0x07 and 0x0B, the field `f`, with its
fields as they stand; `none` where there is no such row. -/
def selectInstr (b : Bytes4) : Option Instr :=
  match b.b0.toNat with
  | 0x00 => some .halt
  | 0x01 => some (.jmp (addrField b))
  | 0x02 => some (.print (lowNibble b.b1))
  | 0x03 => some (.clear (literalField b))
  | 0x04 => some (.color (literalField b))
  | 0x05 => some (.spra (addrField b))
  | 0x06 => some (.spri (addrField b))
  | 0x07 => regOpOf (lowNibble b.b2) (lowNibble b.b1) (lowNibble b.b3)
  | 0x08 => some (.seti (lowNibble b.b1) (literalField b))
  | 0x09 => some (.addi (lowNibble b.b1) (literalField b))
  | 0x0A => some (.rand (lowNibble b.b1) (literalField b))
  | 0x0B => conditionalOf (lowNibble b.b2) (lowNibble b.b1) (lowNibble b.b3)
  | 0x0C => some (.ifeqi (lowNibble b.b1) (literalField b))
  | 0x0D => some (.ifnei (lowNibble b.b1) (literalField b))
  | 0x0E => some (.key (lowNibble b.b1))
  | _ => none

/-- R75. `wellFormed` is the register and key checks of R73 items 3 and 6; a missing row of
`selectInstr` under a known opcode is items 4 and 5. -/
def decode (b : Bytes4) : Decoded :=
  match formatOf b.b0 with
  | none => .illegal .opcode
  | some f =>
    if fillersClear f b then
      match selectInstr b with
      | some i => if i.wellFormed then .instr i else .illegal .operand
      | none => .illegal .operand
    else .illegal .operand

/-- Format A (R63). -/
def encodeA (opc : Byte) (addr : Addr12) : Bytes4 :=
  ⟨opc, operandByte (addr.extractLsb' 8 4), operandByte (addr.extractLsb' 4 4),
    operandByte (addr.extractLsb' 0 4)⟩

/-- Format L (R63). -/
def encodeL (opc : Byte) (n : Byte) : Bytes4 :=
  ⟨opc, 0#8, operandByte (highNibble n), operandByte (lowNibble n)⟩

/-- Format RFR (R63), with the function id `f`. -/
def encodeRFR (opc : Byte) (f : Nibble) (r q : RegField) : Bytes4 :=
  ⟨opc, operandByte r, operandByte f, operandByte q⟩

/-- Format RL (R63). -/
def encodeRL (opc : Byte) (r : RegField) (n : Byte) : Bytes4 :=
  ⟨opc, operandByte r, operandByte (highNibble n), operandByte (lowNibble n)⟩

/-- The four bytes of an instruction, in memory order (R63, R69, R70, R71). -/
def encode : Instr → Bytes4
  | .halt => ⟨0x00#8, 0#8, 0#8, 0#8⟩
  | .jmp addr => encodeA 0x01#8 addr
  | .print r => ⟨0x02#8, operandByte r, 0#8, 0#8⟩
  | .clear n => encodeL 0x03#8 n
  | .color n => encodeL 0x04#8 n
  | .spra addr => encodeA 0x05#8 addr
  | .spri addr => encodeA 0x06#8 addr
  | .set r q => encodeRFR 0x07#8 0#4 r q
  | .add r q => encodeRFR 0x07#8 1#4 r q
  | .sub r q => encodeRFR 0x07#8 2#4 r q
  | .mul r q => encodeRFR 0x07#8 3#4 r q
  | .div r q => encodeRFR 0x07#8 4#4 r q
  | .mod r q => encodeRFR 0x07#8 5#4 r q
  | .and r q => encodeRFR 0x07#8 6#4 r q
  | .or r q => encodeRFR 0x07#8 7#4 r q
  | .xor r q => encodeRFR 0x07#8 8#4 r q
  | .seti r n => encodeRL 0x08#8 r n
  | .addi r n => encodeRL 0x09#8 r n
  | .rand r n => encodeRL 0x0A#8 r n
  | .ifeq r q => encodeRFR 0x0B#8 0#4 r q
  | .ifne r q => encodeRFR 0x0B#8 1#4 r q
  | .iflt r q => encodeRFR 0x0B#8 2#4 r q
  | .ifle r q => encodeRFR 0x0B#8 3#4 r q
  | .ifgt r q => encodeRFR 0x0B#8 4#4 r q
  | .ifge r q => encodeRFR 0x0B#8 5#4 r q
  | .ifeqi r n => encodeRL 0x0C#8 r n
  | .ifnei r n => encodeRL 0x0D#8 r n
  | .key k => ⟨0x0E#8, operandByte k, 0#8, 0#8⟩

/-- The four bytes of the slot word `W` of R7, `b0` in W[31:24] and `b3` in W[7:0], as
spec/opcode_table.json numbers the bits; the bits from `nbits` up are 0. -/
def slotOfWord (nbits w : Nat) : Bytes4 :=
  let v := w % 2 ^ nbits
  ⟨BitVec.ofNat 8 (v / 2 ^ 24), BitVec.ofNat 8 (v / 2 ^ 16), BitVec.ofNat 8 (v / 2 ^ 8),
    BitVec.ofNat 8 v⟩

/-- The instruction the decoder reads from the slot word `w` (assumption 12). -/
def decodeTableWord (nbits w : Nat) : Option Instr :=
  match decode (slotOfWord nbits w) with
  | .instr i => some i
  | .illegal _ => none

end Sys2Proof
end

