-- ==== Sys2Proof/Machine/Fetch.lean ====
section
/-! DEFINITION. The part of a step before the instruction's rule (spec/40_loop_and_control.md R91,
R92), and where an instruction is placed for the next fetch. -/

namespace Sys2Proof.Machine

/-- What the part of a step before the instruction's rule comes to. -/
inductive Fetched where
  /-- the instruction to execute -/
  | instr (i : Instr)
  /-- a fault of the core -/
  | raises (c : FaultCause)
  /-- a stop of the model -/
  | stops (f : Fault)
deriving DecidableEq, Repr

/-- The cause an illegal pattern raises (R73, R92). -/
def illegalCause : Illegal → FaultCause
  | .opcode => .illegalOpcode
  | .operand => .illegalOperand

/-- Fetch and decode (R92): alignment, then range, then the four bytes, then the decoder. -/
def fetchDecode (s : State) : Fetched :=
  if s.pc % slotBytes ≠ 0 then .raises .pcMisaligned
  else if s.pc + slotBytes > memSize then .raises .pcRange
  else
    match memRead4 s.mem s.pc with
    | none => .stops (.readOutsideMemory s.pc)
    | some b =>
      match decode b with
      | .instr i => .instr i
      | .illegal c => .raises (illegalCause c)

/-- The watchdog check, then fetch and decode (R91, R92, R173). -/
def beginStep (s : State) : Fetched :=
  if s.watchdogExpired then .raises .watchdog else fetchDecode s

/-- The end of a step whose instruction's rule came to `o` (R93). -/
def finishStep (o : Out) : Out :=
  match o with
  | .next t => .next t.retire
  | .fault f => .fault f
  | .refused r => .refused r

/-- The address of the slot at which the next step of a run can fetch: the pc where that is a slot of
memory, else 0, where every run starts. -/
def State.fetchSlot (s : State) : Nat :=
  if s.rs = .running ∧ s.pc % slotBytes = 0 ∧ s.pc + slotBytes ≤ memSize then s.pc else 0

/-- `s` in a run, with the slot `b` where the next step fetches (assumption 8). -/
def State.withFetchSlot (s : State) (b : Bytes4) : State :=
  { s with
    mem := placeSlot s.mem s.fetchSlot b
    pc := s.fetchSlot
    rs := .running
    ic := if s.watchdogExpired then 0 else s.ic }

end Sys2Proof.Machine
end

