-- ==== Sys2Proof/Machine/Step.lean ====
section
/-! DEFINITION. The step (spec/40_loop_and_control.md R93), and what happens between runs
(spec/60_exceptions.md R177, R187). -/

namespace Sys2Proof.Machine

/-- In RUNNING, one instruction (R93); in IDLE and FAULTED, the host's next chance to send `tick`. -/
def step (s : State) : Host.Outcome State Fault Refusal :=
  match s.rs with
  | .idle => .next s.await
  | .faulted => .next s.await
  | .running =>
    match beginStep s with
    | .raises c => .next (s.raise c)
    | .stops f => .fault f
    | .instr i => finishStep (exec i s)

/-- `s` in a run, with the slot word `w` where the next step fetches (assumption 8). -/
def State.withFetchWord (s : State) (nbits w : Nat) : State :=
  s.withFetchSlot (slotOfWord nbits w)

end Sys2Proof.Machine
end

