-- ==== Sys2Proof/Safety.lean ====
section
/-! DEFINITION. The terms in which statements about the machine are written: which instruction a step
executes, what an instruction may write, which states a run can be in. -/

namespace Sys2Proof.Machine

/-- The four bytes of memory at `a` (R7), for `a + 4 ≤ 4096`. -/
def State.slotAt (s : State) (a : Nat) : Bytes4 :=
  ⟨readByte s.mem a, readByte s.mem (a + 1), readByte s.mem (a + 2), readByte s.mem (a + 3)⟩

/-- A run is in progress, the watchdog lets it go on (R91) and the slot at the pc can be fetched
(R92). -/
structure State.CanFetch (s : State) : Prop where
  running : s.rs = .running
  watchdog : ∀ limit, s.cfg.watchdogLimit = some limit → s.ic < limit
  aligned : s.pc % 4 = 0
  inRange : s.pc + 4 ≤ 4096

/-- The next step executes the instruction `i` (R91, R92). -/
def State.Executes (s : State) (i : Instr) : Prop :=
  s.CanFetch ∧ decode (s.slotAt s.pc) = .instr i

/-- What fault entry writes, spelled out from R176: `RS`, `FR` and the event, and nothing else. -/
def State.faultEntry (s : State) (c : FaultCause) : State :=
  { s with rs := .faulted, fr := some ⟨c, s.pc⟩, events := s.events ++ [.fault c s.pc] }

/-- The register field an instruction writes, if it has one (R23). -/
def destField : Instr → Option RegField
  | .halt => none
  | .jmp _ => none
  | .print _ => none
  | .clear _ => none
  | .color _ => none
  | .spra _ => none
  | .spri _ => none
  | .set r _ => some r
  | .add r _ => some r
  | .sub r _ => some r
  | .mul r _ => some r
  | .div r _ => some r
  | .mod r _ => some r
  | .and r _ => some r
  | .or r _ => some r
  | .xor r _ => some r
  | .seti r _ => some r
  | .addi r _ => some r
  | .rand r _ => some r
  | .ifeq _ _ => none
  | .ifne _ _ => none
  | .iflt _ _ => none
  | .ifle _ _ => none
  | .ifgt _ _ => none
  | .ifge _ _ => none
  | .ifeqi _ _ => none
  | .ifnei _ _ => none
  | .key _ => none

/-- R23: the ways in which the instruction `i` may change `x[q]` under the parameters `c`. -/
def MayWrite (c : Config) (i : Instr) (q : RegId) : Prop :=
  destField i = some (regField q) ∨ (∃ n, i = .color n ∧ q = drawColor) ∨
    (i = .halt ∧ c.tickReg = some q)

/-- The conditional instructions (R150). -/
def isConditional : Instr → Bool
  | .halt => false
  | .jmp _ => false
  | .print _ => false
  | .clear _ => false
  | .color _ => false
  | .spra _ => false
  | .spri _ => false
  | .set _ _ => false
  | .add _ _ => false
  | .sub _ _ => false
  | .mul _ _ => false
  | .div _ _ => false
  | .mod _ _ => false
  | .and _ _ => false
  | .or _ _ => false
  | .xor _ _ => false
  | .seti _ _ => false
  | .addi _ _ => false
  | .rand _ _ => false
  | .ifeq _ _ => true
  | .ifne _ _ => true
  | .iflt _ _ => true
  | .ifle _ _ => true
  | .ifgt _ _ => true
  | .ifge _ _ => true
  | .ifeqi _ _ => true
  | .ifnei _ _ => true
  | .key _ => true

/-- Two states agree on everything but the host's answers (R186 item 3). -/
def State.SameCore (s t : State) : Prop := { s with host := t.host } = t

/-- What holds of the core between any two steps. -/
structure State.Consistent (s : State) : Prop where
  /-- memory is in its canonical form, within its 4096 bytes (R31) -/
  memory : s.mem.wf = true
  /-- every reachable pc lies in 0..4100 (R24) -/
  pcBound : s.pc ≤ 4100
  /-- `FR` is empty unless `RS = FAULTED` (R29) -/
  recordEmpty : s.rs ≠ .faulted → s.fr = none
  /-- in FAULTED, `FR` holds a pair, and the pc stays where the fault was detected (R29, R176) -/
  recordKept : s.rs = .faulted → ∃ c, s.fr = some ⟨c, s.pc⟩
  /-- a run completes at most `WATCHDOG_LIMIT` instructions (R91) -/
  countBound : ∀ limit, s.cfg.watchdogLimit = some limit → s.ic ≤ limit
  /-- the bound of R6 on `PALETTE_SIZE` -/
  palette : s.cfg.paletteOk

/-- `s` reaches `t` in `k` steps of the machine, stopping nowhere between. -/
def State.Reaches (s : State) (k : Nat) (t : State) : Prop :=
  Host.Core.run Sys2Proof.core k s = .next t

end Sys2Proof.Machine
end

