-- ==== Sys2Proof/Certificates/Slice0/Obligations.lean ====
section
/-! DEFINITION. The statements for the provers. -/

open Sys2Proof Sys2Proof.Machine

/-- R77. Every field at every value the encoding admits, and no second encoding of an instruction. -/
def Obligations.DecodeAndEncodeAreInverse : Prop :=
  (∀ i : Instr, i.wellFormed = true → decode (encode i) = .instr i) ∧
    ∀ (b : Bytes4) (i : Instr), decode b = .instr i → i.wellFormed = true ∧ encode i = b

/-- R73: the six conditions, with the unused bytes of the formats of R63 and R71 written out.
Executing an illegal pattern faults. -/
def Obligations.IllegalPatternsAreTheListedOnes : Prop :=
  ∀ b : Bytes4,
    (decode b = .illegal .opcode ↔ 0x0F ≤ b.b0.toNat) ∧
    (decode b = .illegal .operand ↔
      b.b0.toNat ≤ 0x0E ∧
      ((16 ≤ b.b1.toNat ∨ 16 ≤ b.b2.toNat ∨ 16 ≤ b.b3.toNat) ∨
       (b.b0.toNat = 0x00 ∧ (b.b1 ≠ 0 ∨ b.b2 ≠ 0 ∨ b.b3 ≠ 0)) ∨
       ((b.b0.toNat = 0x02 ∨ b.b0.toNat = 0x0E) ∧ (b.b2 ≠ 0 ∨ b.b3 ≠ 0)) ∨
       ((b.b0.toNat = 0x03 ∨ b.b0.toNat = 0x04) ∧ b.b1 ≠ 0) ∨
       ((b.b0.toNat = 0x02 ∨ (0x07 ≤ b.b0.toNat ∧ b.b0.toNat ≤ 0x0D)) ∧ 12 ≤ b.b1.toNat % 16) ∨
       ((b.b0.toNat = 0x07 ∨ b.b0.toNat = 0x0B) ∧ 12 ≤ b.b3.toNat % 16) ∨
       (b.b0.toNat = 0x07 ∧ 9 ≤ b.b2.toNat % 16) ∨
       (b.b0.toNat = 0x0B ∧ 6 ≤ b.b2.toNat % 16) ∨
       (b.b0.toNat = 0x0E ∧ 5 ≤ b.b1.toNat % 16))) ∧
    ∀ s : State, s.CanFetch → s.slotAt s.pc = b →
      (decode b = .illegal .opcode → step s = .next (s.faultEntry .illegalOpcode)) ∧
      (decode b = .illegal .operand → step s = .next (s.faultEntry .illegalOperand))

/-- A few slots written out bit by bit from R63 and R71, one for each format, as they stand in
spec/95_test_vectors.md. -/
def Obligations.WrittenOutWordsDecode : Prop :=
  decode ⟨0x00#8, 0x00#8, 0x00#8, 0x00#8⟩ = .instr .halt ∧
    decode ⟨0x01#8, 0x0F#8, 0x0F#8, 0x0C#8⟩ = .instr (.jmp 0xFFC#12) ∧
    decode ⟨0x02#8, 0x0B#8, 0x00#8, 0x00#8⟩ = .instr (.print 11#4) ∧
    decode ⟨0x03#8, 0x00#8, 0x0F#8, 0x0F#8⟩ = .instr (.clear 255#8) ∧
    decode ⟨0x07#8, 0x00#8, 0x08#8, 0x01#8⟩ = .instr (.xor 0#4 1#4) ∧
    decode ⟨0x08#8, 0x04#8, 0x0C#8, 0x08#8⟩ = .instr (.seti 4#4 200#8) ∧
    decode ⟨0x0B#8, 0x00#8, 0x02#8, 0x01#8⟩ = .instr (.iflt 0#4 1#4) ∧
    decode ⟨0x0E#8, 0x04#8, 0x00#8, 0x00#8⟩ = .instr (.key 4#4) ∧
    decode ⟨0x18#8, 0x3C#8, 0x3C#8, 0x18#8⟩ = .illegal .opcode

/-- R93: where the checks of R91 and R92 pass and the slot at the pc decodes to `i`, the step is the
rule of `i`, and `IC` goes up by one if the rule completed without a fault. -/
def Obligations.StepRunsTheDecodedInstruction : Prop :=
  ∀ (s : State) (i : Instr), s.Executes i →
    step s = match exec i s with
      | .next t => .next (if t.rs = .faulted then t else { t with ic := t.ic + 1 })
      | .fault f => .fault f
      | .refused r => .refused r

/-- R91, R92 and the order of R173: watchdog, alignment, range, opcode, operand. Each fault has the pc
as its `fpc`. -/
def Obligations.ChecksBeforeExecutionInOrder : Prop :=
  ∀ s : State, s.rs = .running →
    (∀ limit, s.cfg.watchdogLimit = some limit → limit ≤ s.ic → step s = .next (s.faultEntry .watchdog)) ∧
    ((∀ limit, s.cfg.watchdogLimit = some limit → s.ic < limit) →
      (s.pc % 4 ≠ 0 → step s = .next (s.faultEntry .pcMisaligned)) ∧
      (s.pc % 4 = 0 → 4096 < s.pc + 4 → step s = .next (s.faultEntry .pcRange)) ∧
      (s.pc % 4 = 0 → s.pc + 4 ≤ 4096 → 0x0F ≤ (readByte s.mem s.pc).toNat →
        step s = .next (s.faultEntry .illegalOpcode)) ∧
      (s.pc % 4 = 0 → s.pc + 4 ≤ 4096 → decode (s.slotAt s.pc) = .illegal .operand →
        step s = .next (s.faultEntry .illegalOperand)))

/-- R90. What the host answers is free; a settled answer is the answer. While a run is in progress no
tick is taken. The log entry `tick` and the settled answers are the model's own (assumptions 5 and 10). -/
def Obligations.TickStartsARunOnlyFromIdle : Prop :=
  ∀ s : State,
    (s.rs = .idle →
      (step s = .next { s with pc := 0, ic := 0, rs := .running, events := s.events ++ [.tick], host := ⟨s.host.ticks.tail, s.host.keys, s.host.randoms, s.host.asked + 1⟩ } ∨
        step s = .next { s with host := ⟨s.host.ticks.tail, s.host.keys, s.host.randoms, s.host.asked + 1⟩ }) ∧
      (∀ rest, s.host.ticks = true :: rest →
        step s = .next { s with pc := 0, ic := 0, rs := .running, events := s.events ++ [.tick], host := ⟨rest, s.host.keys, s.host.randoms, s.host.asked + 1⟩ }) ∧
      (∀ rest, s.host.ticks = false :: rest →
        step s = .next { s with host := ⟨rest, s.host.keys, s.host.randoms, s.host.asked + 1⟩ })) ∧
    (s.rs = .faulted →
      step s = .next { s with host := ⟨s.host.ticks.tail, s.host.keys, s.host.randoms, s.host.asked + 1⟩ }) ∧
    (∀ t, s.rs = .running → step s = .next t → t.host.ticks = s.host.ticks)

/-- R177: however many steps follow, the core does not change; power-on reset leaves FAULTED. -/
def Obligations.FaultedIsPermanentUntilPowerOnReset : Prop :=
  ∀ s : State, s.rs = .faulted →
    (∀ k : Nat, ∃ t, s.Reaches k t ∧ t = { s with host := t.host }) ∧
    s.powerOnReset.rs = .idle ∧ s.powerOnReset.fr = none

/-- The model never stops: the range checks come before every `MemRead` (R47), the decoder is total (R73),
and every instruction has a meaning. R93 defines a step for RUNNING only: that a fault of the core is a
next state is read from R176 (assumption 6, DEDUCED), and that IDLE and FAULTED have a step, the host's
chance to send `tick`, is the model's choice (assumption 5, DESIGN CHOICE). -/
def Obligations.EveryStepHasANextState : Prop :=
  ∀ s : State, ∃ t, step s = .next t

/-- R176: whatever part of a step raises the fault, the state after it is the state before the step
with `RS`, `FR` and the one event written. -/
def Obligations.FaultsArePrecise : Prop :=
  ∀ s t : State, s.rs = .running → step s = .next t → t.rs = .faulted → ∃ c, t = s.faultEntry c

/-- R23, over whole steps: a register that changes is the destination of the instruction the step
executes, or register 11 under COLOR, or `TICK_REG` under HALT. -/
def Obligations.RegistersChangeOnlyByTheirWriters : Prop :=
  ∀ (s t : State) (q : RegId), step s = .next t → t.regs[q] ≠ s.regs[q] →
    ∃ i, s.Executes i ∧ MayWrite s.cfg i q

/-- Memory by R41, over any number of steps and so across runs; and the parameters of R6, which R41 does
not speak of: that they stand in `State.cfg`, which no step changes, is the model's choice (assumption 1,
DESIGN CHOICE). -/
def Obligations.TheImageNeverChanges : Prop :=
  ∀ (k : Nat) (s t : State), s.Reaches k t →
    t.mem = s.mem ∧ t.cfg = s.cfg ∧ ∀ a, readByte t.mem a = readByte s.mem a

/-- R186 item 1: requests are added to the log in program order, at most one in a step. -/
def Obligations.AtMostOneRequestPerStep : Prop :=
  ∀ s t : State, step s = .next t → t.events = s.events ∨ ∃ e, t.events = s.events ++ [e]

/-- R95: there is no other exit from RUNNING. -/
def Obligations.ARunEndsOnlyByHaltOrFault : Prop :=
  ∀ s t : State, s.rs = .running → step s = .next t → t.rs ≠ .running →
    (s.Executes .halt ∧ t.rs = .idle ∧ t.events = s.events ++ [.done]) ∨
      (t.rs = .faulted ∧ ∃ c, t.fr = some ⟨c, s.pc⟩ ∧ t.events = s.events ++ [.fault c s.pc])

/-- R93 and R30: `IC` counts the instructions completed without a fault. -/
def Obligations.CompletedInstructionsAreCounted : Prop :=
  ∀ s t : State, s.rs = .running → step s = .next t →
    t.ic = if t.rs = .faulted then s.ic else s.ic + 1

/-- R91: a run completes at most `L` instructions, and then the next step faults. -/
def Obligations.TheWatchdogEndsEveryRun : Prop :=
  ∀ (s : State) (limit : Nat), s.rs = .running → s.cfg.watchdogLimit = some limit →
    ∃ k t, k ≤ limit - s.ic + 1 ∧ s.Reaches k t ∧ t.rs ≠ .running

/-- R95, R97: without a watchdog, a JMP to its own address runs for ever and makes no request. -/
def Obligations.AJumpToItselfNeverEnds : Prop :=
  ∀ (s : State) (addr : Addr12), s.Executes (.jmp addr) → addr.toNat = s.pc → s.cfg.watchdogLimit = none →
    ∀ k : Nat, s.Reaches k { s with ic := s.ic + k }

/-- The invariant of State.Consistent, from every state that meets it. -/
def Obligations.EveryStepKeepsTheCoreConsistent : Prop :=
  ∀ s t : State, s.Consistent → step s = .next t → t.Consistent

/-- The invariant holds after power-on reset in every legal configuration, and in State.reset (whose
configuration is the model's choice, assumption 1). -/
def Obligations.PowerOnIsConsistent : Prop :=
  (∀ c : Config, c.paletteOk → (State.powerOn c).Consistent) ∧ State.reset.Consistent

/-- R200 and the first column of R33: for the state after power-on in any configuration, and for the
reset of any state. -/
def Obligations.PowerOnResetValues : Prop :=
  (∀ c : Config,
      (∀ q : RegId, (State.powerOn c).regs[q] = 0) ∧ (State.powerOn c).pc = 0 ∧
      (State.powerOn c).rs = .idle ∧ (State.powerOn c).fr = none ∧ (State.powerOn c).ic = 0) ∧
    ∀ s : State,
      (∀ q : RegId, s.powerOnReset.regs[q] = 0) ∧ s.powerOnReset.pc = 0 ∧
      s.powerOnReset.rs = .idle ∧ s.powerOnReset.fr = none ∧ s.powerOnReset.ic = 0

/-- R25, R94 and R150, over whole steps. -/
def Obligations.ThePcMovesByTheRules : Prop :=
  ∀ (s t : State) (i : Instr), s.Executes i → step s = .next t →
    (t.rs = .faulted → t.pc = s.pc) ∧
    (t.rs ≠ .faulted →
      t.pc = s.pc + 4 ∨ (∃ addr, i = .jmp addr ∧ t.pc = addr.toNat) ∨
        (isConditional i = true ∧ t.pc = s.pc + 8))

/-- R174, R186: two states that differ only in what the host will answer step alike, unless the
instruction is KEY or RAND; and then nothing is taken from the host. -/
def Obligations.HostAnswersArriveOnlyByQueries : Prop :=
  ∀ s₁ s₂ t₁ : State, s₁.rs = .running → s₁.SameCore s₂ →
    (∀ k, ¬ s₁.Executes (.key k)) → (∀ r n, ¬ s₁.Executes (.rand r n)) → step s₁ = .next t₁ →
    ∃ t₂, step s₂ = .next t₂ ∧ t₁.SameCore t₂ ∧ t₁.host = s₁.host ∧ t₂.host = s₂.host

/-- R47, R151: but for the two sprite instructions a step depends on no byte of memory outside the slot
at the pc; a skipped slot is never read. -/
def Obligations.AStepReadsOnlyItsSlot : Prop :=
  ∀ (s t : State) (i : Instr) (m : Memory), s.Executes i → (∀ a, i ≠ .spra a) → (∀ a, i ≠ .spri a) →
    (∀ d, d < 4 → readByte m (s.pc + d) = readByte s.mem (s.pc + d)) → step s = .next t →
    step { s with mem := m } = .next { t with mem := m }

/-- R151: the skip itself does not fault; the next fetch raises PC_RANGE with the pc it used. -/
def Obligations.ASkipPastMemoryFaultsAtTheNextFetch : Prop :=
  ∀ (s t : State) (i : Instr), s.Executes i → isConditional i = true → s.cfg.watchdogLimit = none →
    4096 ≤ s.pc + 8 → step s = .next t → t.pc = s.pc + 8 →
    t.rs = .running ∧ step t = .next (t.faultEntry .pcRange)

/-- R161 item 2: with A at `a`, B at `a + 4` and S at `a + 8`, control reaches S when not A or B. -/
def Obligations.AGuardOfAGuardIsNoConjunction : Prop :=
  ∀ (s : State) (r q : RegId) (m n : Byte), s.rs = .running → s.cfg.watchdogLimit = none →
    s.pc % 4 = 0 → s.pc + 8 ≤ 4096 →
    decode (s.slotAt s.pc) = .instr (.ifeqi (regField r) m) →
    decode (s.slotAt (s.pc + 4)) = .instr (.ifeqi (regField q) n) →
    (s.regs[r] ≠ m → ∃ t, step s = .next t ∧ t.pc = s.pc + 8) ∧
    (s.regs[r] = m → ∃ t u, step s = .next t ∧ t.pc = s.pc + 4 ∧ step t = .next u ∧
      u.pc = if s.regs[q] = n then s.pc + 8 else s.pc + 12)

/-- R90, R96: from HALT to the start of the next run no register changes, without a `TICK_REG`. -/
def Obligations.RegistersPersistAcrossRuns : Prop :=
  ∀ s t u : State, s.Executes .halt → s.cfg.tickReg = none → step s = .next t → step t = .next u →
    t.rs = .idle ∧ u.regs = s.regs ∧ (u.rs = .running → u.pc = 0 ∧ u.ic = 0)

/-- The model's own: `withFetchWord` (assumption 8) places a slot where the next step fetches it. -/
def Obligations.APlacedWordIsExecutedNext : Prop :=
  ∀ (s : State) (nbits w : Nat) (i : Instr), s.mem.wf = true → s.cfg.watchdogLimit ≠ some 0 →
    decodeTableWord nbits w = some i → (s.withFetchWord nbits w).Executes i

/-- The model's own (assumption 9): a term no slot decodes to faults as the illegal pattern it would be. -/
def Obligations.AnIllFormedTermFaults : Prop :=
  ∀ (i : Instr) (s : State), i.wellFormed = false → exec i s = .next (s.faultEntry .illegalOperand)

/-- R96. -/
def Obligations.HaltEndsTheRun : Prop :=
  decode ⟨0x00#8, 0#8, 0#8, 0#8⟩ = .instr .halt ∧
    ∀ s : State,
      (s.cfg.tickReg = none →
        exec .halt s = .next { s with pc := s.pc + 4, rs := .idle, events := s.events ++ [.done] }) ∧
      (∀ t, s.cfg.tickReg = some t → ∃ v : Byte, v.toNat = (s.regs[t].toNat + 1) % 256 ∧
        exec .halt s =
          .next { s with regs := s.regs.set t v, pc := s.pc + 4, rs := .idle, events := s.events ++ [.done] })

/-- R97: the jump itself never faults; the next fetch faults exactly on a misaligned target. -/
def Obligations.JmpSetsThePc : Prop :=
  ∀ addr : Addr12,
    decode ⟨0x01#8, .ofNat 8 (addr.toNat / 256), .ofNat 8 (addr.toNat / 16 % 16), .ofNat 8 (addr.toNat % 16)⟩
      = .instr (.jmp addr) ∧
    (∀ s : State, exec (.jmp addr) s = .next { s with pc := addr.toNat }) ∧
    ∀ s : State, s.rs = .running → (∀ limit, s.cfg.watchdogLimit = some limit → s.ic < limit) →
      s.pc = addr.toNat →
      (addr.toNat % 4 ≠ 0 → step s = .next (s.faultEntry .pcMisaligned)) ∧
      (∀ t, step s = .next t → t.events ≠ s.events ++ [.fault .pcRange s.pc])

/-- R110. -/
def Obligations.PrintEmitsTheRegister : Prop :=
  ∀ r : RegId,
    decode ⟨0x02#8, .ofNat 8 r.val, 0#8, 0#8⟩ = .instr (.print (regField r)) ∧
    ∀ s : State, exec (.print (regField r)) s =
      .next { s with pc := s.pc + 4, events := s.events ++ [.print s.regs[r]] }

/-- R111. -/
def Obligations.ColorSetsTheDrawColor : Prop :=
  ∀ n : Byte,
    decode ⟨0x04#8, 0#8, .ofNat 8 (n.toNat / 16), .ofNat 8 (n.toNat % 16)⟩ = .instr (.color n) ∧
    ∀ s : State,
      (n.toNat < s.cfg.paletteSize → exec (.color n) s =
        .next { s with regs := s.regs.set 11 n, pc := s.pc + 4, events := s.events ++ [.setColor n] }) ∧
      (s.cfg.paletteSize ≤ n.toNat → exec (.color n) s = .next (s.faultEntry .paletteRange))

/-- R112. -/
def Obligations.ClearEmitsThePaletteIndex : Prop :=
  ∀ n : Byte,
    decode ⟨0x03#8, 0#8, .ofNat 8 (n.toNat / 16), .ofNat 8 (n.toNat % 16)⟩ = .instr (.clear n) ∧
    ∀ s : State,
      (n.toNat < s.cfg.paletteSize → exec (.clear n) s =
        .next { s with pc := s.pc + 4, events := s.events ++ [.clear n] }) ∧
      (s.cfg.paletteSize ≤ n.toNat → exec (.clear n) s = .next (s.faultEntry .paletteRange))

/-- R113. -/
def Obligations.SpraDrawsTheBytesAtItsAddress : Prop :=
  ∀ addr : Addr12,
    decode ⟨0x05#8, .ofNat 8 (addr.toNat / 256), .ofNat 8 (addr.toNat / 16 % 16), .ofNat 8 (addr.toNat % 16)⟩
      = .instr (.spra addr) ∧
    ∀ s : State,
      (addr.toNat ≤ 4092 → exec (.spra addr) s =
        .next { s with pc := s.pc + 4, events := s.events ++ [.sprite s.regs[0] s.regs[1] s.regs[11] (s.slotAt addr.toNat)] }) ∧
      (4092 < addr.toNat → exec (.spra addr) s = .next (s.faultEntry .spriteRange))

/-- R114: the address is the one the meaning computes, `SPRITE_IMM_MAP` of the id; under the default map
it is the id. -/
def Obligations.SpriDrawsTheBytesItsIdMapsTo : Prop :=
  ∀ i : Addr12,
    decode ⟨0x06#8, .ofNat 8 (i.toNat / 256), .ofNat 8 (i.toNat / 16 % 16), .ofNat 8 (i.toNat % 16)⟩
      = .instr (.spri i) ∧
    ∀ s : State,
      ((spriteImmMap s.cfg.spriteImm i).toNat ≤ 4092 → exec (.spri i) s =
        .next { s with pc := s.pc + 4, events := s.events ++ [.sprite s.regs[0] s.regs[1] s.regs[11] (s.slotAt (spriteImmMap s.cfg.spriteImm i).toNat)] }) ∧
      (4092 < (spriteImmMap s.cfg.spriteImm i).toNat → exec (.spri i) s = .next (s.faultEntry .spriteRange)) ∧
      (s.cfg.spriteImm = [] → exec (.spri i) s = exec (.spra i) s)

/-- R131. -/
def Obligations.SetCopiesARegister : Prop :=
  ∀ r q : RegId,
    decode ⟨0x07#8, .ofNat 8 r.val, 0x00#8, .ofNat 8 q.val⟩ = .instr (.set (regField r) (regField q)) ∧
    ∀ s : State, ∃ v : Byte, v = s.regs[q] ∧
      exec (.set (regField r) (regField q)) s = .next { s with regs := s.regs.set r v, pc := s.pc + 4 }

/-- R132. -/
def Obligations.AddWritesTheSumMod256 : Prop :=
  ∀ r q : RegId,
    decode ⟨0x07#8, .ofNat 8 r.val, 0x01#8, .ofNat 8 q.val⟩ = .instr (.add (regField r) (regField q)) ∧
    ∀ s : State, ∃ v : Byte, v.toNat = (s.regs[r].toNat + s.regs[q].toNat) % 256 ∧
      exec (.add (regField r) (regField q)) s = .next { s with regs := s.regs.set r v, pc := s.pc + 4 }

/-- R133. -/
def Obligations.SubWritesTheDifferenceMod256 : Prop :=
  ∀ r q : RegId,
    decode ⟨0x07#8, .ofNat 8 r.val, 0x02#8, .ofNat 8 q.val⟩ = .instr (.sub (regField r) (regField q)) ∧
    ∀ s : State, ∃ v : Byte, (v.toNat : Int) = ((s.regs[r].toNat : Int) - (s.regs[q].toNat : Int)) % 256 ∧
      exec (.sub (regField r) (regField q)) s = .next { s with regs := s.regs.set r v, pc := s.pc + 4 }

/-- R134. -/
def Obligations.MulWritesTheLowByteOfTheProduct : Prop :=
  ∀ r q : RegId,
    decode ⟨0x07#8, .ofNat 8 r.val, 0x03#8, .ofNat 8 q.val⟩ = .instr (.mul (regField r) (regField q)) ∧
    ∀ s : State, ∃ v : Byte, v.toNat = (s.regs[r].toNat * s.regs[q].toNat) % 256 ∧
      exec (.mul (regField r) (regField q)) s = .next { s with regs := s.regs.set r v, pc := s.pc + 4 }

/-- R135. -/
def Obligations.DivWritesTheQuotient : Prop :=
  ∀ r q : RegId,
    decode ⟨0x07#8, .ofNat 8 r.val, 0x04#8, .ofNat 8 q.val⟩ = .instr (.div (regField r) (regField q)) ∧
    ∀ s : State,
      (s.regs[q] ≠ 0 → ∃ v : Byte, v.toNat = s.regs[r].toNat / s.regs[q].toNat ∧
        exec (.div (regField r) (regField q)) s = .next { s with regs := s.regs.set r v, pc := s.pc + 4 }) ∧
      (s.regs[q] = 0 → exec (.div (regField r) (regField q)) s = .next (s.faultEntry .divZero))

/-- R136. -/
def Obligations.ModWritesTheRemainder : Prop :=
  ∀ r q : RegId,
    decode ⟨0x07#8, .ofNat 8 r.val, 0x05#8, .ofNat 8 q.val⟩ = .instr (.mod (regField r) (regField q)) ∧
    ∀ s : State,
      (s.regs[q] ≠ 0 → ∃ v : Byte, v.toNat = s.regs[r].toNat - s.regs[q].toNat * (s.regs[r].toNat / s.regs[q].toNat) ∧
        exec (.mod (regField r) (regField q)) s = .next { s with regs := s.regs.set r v, pc := s.pc + 4 }) ∧
      (s.regs[q] = 0 → exec (.mod (regField r) (regField q)) s = .next (s.faultEntry .divZero))

/-- R137. -/
def Obligations.AndWritesTheBitwiseAnd : Prop :=
  ∀ r q : RegId,
    decode ⟨0x07#8, .ofNat 8 r.val, 0x06#8, .ofNat 8 q.val⟩ = .instr (.and (regField r) (regField q)) ∧
    ∀ s : State, ∃ v : Byte, (∀ b, b < 8 → v.getLsbD b = (s.regs[r].getLsbD b && s.regs[q].getLsbD b)) ∧
      exec (.and (regField r) (regField q)) s = .next { s with regs := s.regs.set r v, pc := s.pc + 4 }

/-- R138. -/
def Obligations.OrWritesTheBitwiseOr : Prop :=
  ∀ r q : RegId,
    decode ⟨0x07#8, .ofNat 8 r.val, 0x07#8, .ofNat 8 q.val⟩ = .instr (.or (regField r) (regField q)) ∧
    ∀ s : State, ∃ v : Byte, (∀ b, b < 8 → v.getLsbD b = (s.regs[r].getLsbD b || s.regs[q].getLsbD b)) ∧
      exec (.or (regField r) (regField q)) s = .next { s with regs := s.regs.set r v, pc := s.pc + 4 }

/-- R139. -/
def Obligations.XorWritesTheBitwiseXor : Prop :=
  ∀ r q : RegId,
    decode ⟨0x07#8, .ofNat 8 r.val, 0x08#8, .ofNat 8 q.val⟩ = .instr (.xor (regField r) (regField q)) ∧
    ∀ s : State, ∃ v : Byte, (∀ b, b < 8 → v.getLsbD b = (s.regs[r].getLsbD b ^^ s.regs[q].getLsbD b)) ∧
      exec (.xor (regField r) (regField q)) s = .next { s with regs := s.regs.set r v, pc := s.pc + 4 }

/-- R140. -/
def Obligations.SetiWritesTheLiteral : Prop :=
  ∀ (r : RegId) (n : Byte),
    decode ⟨0x08#8, .ofNat 8 r.val, .ofNat 8 (n.toNat / 16), .ofNat 8 (n.toNat % 16)⟩ = .instr (.seti (regField r) n) ∧
    ∀ s : State, ∃ v : Byte, v = n ∧
      exec (.seti (regField r) n) s = .next { s with regs := s.regs.set r v, pc := s.pc + 4 }

/-- R141. -/
def Obligations.AddiWritesTheSumMod256 : Prop :=
  ∀ (r : RegId) (n : Byte),
    decode ⟨0x09#8, .ofNat 8 r.val, .ofNat 8 (n.toNat / 16), .ofNat 8 (n.toNat % 16)⟩ = .instr (.addi (regField r) n) ∧
    ∀ s : State, ∃ v : Byte, v.toNat = (s.regs[r].toNat + n.toNat) % 256 ∧
      exec (.addi (regField r) n) s = .next { s with regs := s.regs.set r v, pc := s.pc + 4 }

/-- R142: the draw is the host's, any value below the bound. The log entry of the query and the settled
answers are the model's own (assumptions 3, 4 and 10). -/
def Obligations.RandDrawsBelowItsBound : Prop :=
  ∀ (r : RegId) (n : Byte),
    decode ⟨0x0A#8, .ofNat 8 r.val, .ofNat 8 (n.toNat / 16), .ofNat 8 (n.toNat % 16)⟩ = .instr (.rand (regField r) n) ∧
    ∀ s : State,
      (n ≠ 0 → ∃ v : Byte, v.toNat < n.toNat ∧
        exec (.rand (regField r) n) s =
          .next { s with regs := s.regs.set r v, pc := s.pc + 4, events := s.events ++ [.random n v], host := ⟨s.host.ticks, s.host.keys, s.host.randoms.tail, s.host.asked + 1⟩ } ∧
        ∀ w rest, s.host.randoms = w :: rest → w.toNat < n.toNat → v = w) ∧
      (n = 0 → exec (.rand (regField r) n) s = .next (s.faultEntry .randZero))

/-- R152, with the skip of R150. -/
def Obligations.IfeqSkipsUnlessEqual : Prop :=
  ∀ r q : RegId,
    decode ⟨0x0B#8, .ofNat 8 r.val, 0x00#8, .ofNat 8 q.val⟩ = .instr (.ifeq (regField r) (regField q)) ∧
    ∀ s : State, exec (.ifeq (regField r) (regField q)) s =
      .next { s with pc := if s.regs[r] = s.regs[q] then s.pc + 4 else s.pc + 8 }

/-- R153, with the skip of R150. -/
def Obligations.IfneSkipsUnlessDifferent : Prop :=
  ∀ r q : RegId,
    decode ⟨0x0B#8, .ofNat 8 r.val, 0x01#8, .ofNat 8 q.val⟩ = .instr (.ifne (regField r) (regField q)) ∧
    ∀ s : State, exec (.ifne (regField r) (regField q)) s =
      .next { s with pc := if s.regs[r] ≠ s.regs[q] then s.pc + 4 else s.pc + 8 }

/-- R154, with the skip of R150. -/
def Obligations.IfltSkipsUnlessLess : Prop :=
  ∀ r q : RegId,
    decode ⟨0x0B#8, .ofNat 8 r.val, 0x02#8, .ofNat 8 q.val⟩ = .instr (.iflt (regField r) (regField q)) ∧
    ∀ s : State, exec (.iflt (regField r) (regField q)) s =
      .next { s with pc := if s.regs[r].toNat < s.regs[q].toNat then s.pc + 4 else s.pc + 8 }

/-- R155, with the skip of R150. -/
def Obligations.IfleSkipsUnlessLessOrEqual : Prop :=
  ∀ r q : RegId,
    decode ⟨0x0B#8, .ofNat 8 r.val, 0x03#8, .ofNat 8 q.val⟩ = .instr (.ifle (regField r) (regField q)) ∧
    ∀ s : State, exec (.ifle (regField r) (regField q)) s =
      .next { s with pc := if s.regs[r].toNat ≤ s.regs[q].toNat then s.pc + 4 else s.pc + 8 }

/-- R156, with the skip of R150. -/
def Obligations.IfgtSkipsUnlessGreater : Prop :=
  ∀ r q : RegId,
    decode ⟨0x0B#8, .ofNat 8 r.val, 0x04#8, .ofNat 8 q.val⟩ = .instr (.ifgt (regField r) (regField q)) ∧
    ∀ s : State, exec (.ifgt (regField r) (regField q)) s =
      .next { s with pc := if s.regs[r].toNat > s.regs[q].toNat then s.pc + 4 else s.pc + 8 }

/-- R157, with the skip of R150. -/
def Obligations.IfgeSkipsUnlessGreaterOrEqual : Prop :=
  ∀ r q : RegId,
    decode ⟨0x0B#8, .ofNat 8 r.val, 0x05#8, .ofNat 8 q.val⟩ = .instr (.ifge (regField r) (regField q)) ∧
    ∀ s : State, exec (.ifge (regField r) (regField q)) s =
      .next { s with pc := if s.regs[r].toNat ≥ s.regs[q].toNat then s.pc + 4 else s.pc + 8 }

/-- R158, with the skip of R150. -/
def Obligations.IfeqiSkipsUnlessEqualToTheLiteral : Prop :=
  ∀ (r : RegId) (n : Byte),
    decode ⟨0x0C#8, .ofNat 8 r.val, .ofNat 8 (n.toNat / 16), .ofNat 8 (n.toNat % 16)⟩ = .instr (.ifeqi (regField r) n) ∧
    ∀ s : State, exec (.ifeqi (regField r) n) s =
      .next { s with pc := if s.regs[r] = n then s.pc + 4 else s.pc + 8 }

/-- R159, with the skip of R150. -/
def Obligations.IfneiSkipsUnlessDifferentFromTheLiteral : Prop :=
  ∀ (r : RegId) (n : Byte),
    decode ⟨0x0D#8, .ofNat 8 r.val, .ofNat 8 (n.toNat / 16), .ofNat 8 (n.toNat % 16)⟩ = .instr (.ifnei (regField r) n) ∧
    ∀ s : State, exec (.ifnei (regField r) n) s =
      .next { s with pc := if s.regs[r] ≠ n then s.pc + 4 else s.pc + 8 }

/-- R160, with the skip of R150: the answer is the host's, a fresh one each time. The log entry of the
query and the settled answers are the model's own (assumptions 3 and 10). -/
def Obligations.KeySkipsUnlessTheKeyIsDown : Prop :=
  ∀ k : Key,
    decode ⟨0x0E#8, match k with | .action => 0#8 | .up => 1#8 | .down => 2#8 | .left => 3#8 | .right => 4#8, 0#8, 0#8⟩
      = .instr (.key (keyField k)) ∧
    ∀ s : State, ∃ down : Bool,
      exec (.key (keyField k)) s =
        .next { s with pc := if down then s.pc + 4 else s.pc + 8, events := s.events ++ [.key k down], host := ⟨s.host.ticks, s.host.keys.tail, s.host.randoms, s.host.asked + 1⟩ } ∧
      ∀ b rest, s.host.keys = b :: rest → down = b

/-- R136: x = (x / y) y + x % y, over the two instructions. -/
def Obligations.QuotientAndRemainderRecompose : Prop :=
  ∀ (r q : RegId) (s t u : State), s.regs[q] ≠ 0 →
    exec (.div (regField r) (regField q)) s = .next t → exec (.mod (regField r) (regField q)) s = .next u →
    t.regs[r].toNat * s.regs[q].toNat + u.regs[r].toNat = s.regs[r].toNat ∧
      u.regs[r].toNat < s.regs[q].toNat
end

