-- ==== Sys2Proof/Laws/Decode.lean ====
section
/-! SUPPORT. The fields of an encoding: what the decoder's field readers give on what the encoder
wrote (spec/30_encoding.md R62, R67, R68). -/

namespace Sys2Proof

@[simp] theorem highNibble_operandByte (x : Nibble) : highNibble (operandByte x) = 0#4 := by
  revert x; decide

@[simp] theorem lowNibble_operandByte (x : Nibble) : lowNibble (operandByte x) = x := by
  revert x; decide

@[simp] theorem highNibble_zero : highNibble 0#8 = 0#4 := by decide

@[simp] theorem lowNibble_zero : lowNibble 0#8 = 0#4 := by decide

/-- A byte is its two nibbles, the high one first (R68). -/
@[simp] theorem highNibble_append_lowNibble (n : Byte) : (highNibble n ++ lowNibble n : Byte) = n := by
  revert n; decide

/-- An operand byte with clear high bits holds its low nibble and nothing else (R62). -/
theorem operandByte_lowNibble {b : Byte} (h : highNibble b = 0#4) : operandByte (lowNibble b) = b := by
  revert b; decide

/-- A 12-bit address is its three nibbles, the most significant first (R67). -/
theorem addr_nibbles (a : Addr12) :
    (a.extractLsb' 8 4 ++ a.extractLsb' 4 4 ++ a.extractLsb' 0 4 : Addr12) = a := by
  apply BitVec.eq_of_getLsbD_eq
  intro i hi
  have h : ∀ j, j < 12 → (if j < 4 then a.getLsbD j else if j - 4 < 4 then a.getLsbD (4 + (j - 4))
      else a.getLsbD (8 + (j - 4 - 4))) = a.getLsbD j := by
    intro j hj
    split
    · rfl
    · split
      · congr 1
        omega
      · congr 1
        omega
  simp only [BitVec.getLsbD_append, BitVec.getLsbD_extractLsb', Nat.zero_add]
  by_cases h1 : i < 4
  · simp [h1]
  · by_cases h2 : i - 4 < 4
    · have := h i hi
      simp_all
    · have := h i hi
      have h3 : i - 4 - 4 < 4 := by omega
      simp_all

@[simp] theorem addrField_encodeA (opc : Byte) (a : Addr12) : addrField (encodeA opc a) = a := by
  simp only [addrField, encodeA, lowNibble_operandByte]
  exact addr_nibbles a

@[simp] theorem literalField_encodeL (opc n : Byte) : literalField (encodeL opc n) = n := by
  simp [literalField, encodeL]

@[simp] theorem literalField_encodeRL (opc : Byte) (r : RegField) (n : Byte) :
    literalField (encodeRL opc r n) = n := by
  simp [literalField, encodeRL]

theorem fillersClear_encodeA (opc : Byte) (a : Addr12) : fillersClear .a (encodeA opc a) = true := by
  simp [fillersClear, fillerClear, encodeA]

theorem fillersClear_encodeL (opc n : Byte) : fillersClear .l (encodeL opc n) = true := by
  simp [fillersClear, fillerClear, encodeL]

theorem fillersClear_encodeRFR (opc : Byte) (f : Nibble) (r q : RegField) :
    fillersClear .rfr (encodeRFR opc f r q) = true := by
  simp [fillersClear, fillerClear, encodeRFR]

theorem fillersClear_encodeRL (opc : Byte) (r : RegField) (n : Byte) :
    fillersClear .rl (encodeRL opc r n) = true := by
  simp [fillersClear, fillerClear, encodeRL]

end Sys2Proof
end

