-- ==== Sys2Proof/Laws/Memory.lean ====
section
/-! SUPPORT. Reading after writing, and the canonical form of memory under every memory operation. -/

namespace Sys2Proof.Machine

theorem memoryWfFrom_cons {lo a : Nat} {v : Byte} {m : Memory} :
    memoryWfFrom lo ((a, v) :: m) = true ↔
      lo ≤ a ∧ a < memSize ∧ v ≠ unlistedByte ∧ memoryWfFrom (a + 1) m = true := by
  simp [memoryWfFrom, and_assoc]

theorem memoryWfFrom_mono {lo hi : Nat} (h : lo ≤ hi) {m : Memory} (w : memoryWfFrom hi m = true) :
    memoryWfFrom lo m = true := by
  cases m with
  | nil => rfl
  | cons c m =>
    obtain ⟨a, v⟩ := c
    rw [memoryWfFrom_cons] at w ⊢
    exact ⟨h.trans w.1, w.2⟩

/-- An address below every listed one reads as an unlisted one. -/
theorem readByte_below {lo : Nat} {m : Memory} (w : memoryWfFrom lo m = true) {a : Nat} (h : a < lo) :
    readByte m a = unlistedByte := by
  induction m generalizing lo with
  | nil => rfl
  | cons c m ih =>
    obtain ⟨k, v⟩ := c
    rw [memoryWfFrom_cons] at w
    have hk : k ≠ a := by omega
    simp only [readByte, if_neg hk]
    exact ih w.2.2.2 (by omega)

theorem writeByte_wfFrom {lo : Nat} {m : Memory} (w : memoryWfFrom lo m = true) {a : Nat}
    (hlo : lo ≤ a) (ha : a < memSize) (v : Byte) : memoryWfFrom lo (writeByte m a v) = true := by
  induction m generalizing lo with
  | nil =>
    by_cases hv : v = unlistedByte
    · simp [writeByte, hv, memoryWfFrom]
    · simp only [writeByte, if_neg hv, memoryWfFrom_cons]
      exact ⟨hlo, ha, hv, rfl⟩
  | cons c m ih =>
    obtain ⟨k, u⟩ := c
    have w' := w
    rw [memoryWfFrom_cons] at w'
    obtain ⟨h1, h2, h3, h4⟩ := w'
    unfold writeByte
    split_ifs with hk hv he hv
    · exact w
    · rw [memoryWfFrom_cons]
      exact ⟨hlo, ha, hv, memoryWfFrom_cons.mpr ⟨by omega, h2, h3, h4⟩⟩
    · exact memoryWfFrom_mono (by omega) h4
    · subst he
      exact memoryWfFrom_cons.mpr ⟨hlo, ha, hv, h4⟩
    · exact memoryWfFrom_cons.mpr ⟨h1, h2, h3, ih h4 (by omega)⟩

theorem readByte_writeByte_same {lo : Nat} {m : Memory} (w : memoryWfFrom lo m = true) (a : Nat)
    (v : Byte) : readByte (writeByte m a v) a = v := by
  induction m generalizing lo with
  | nil =>
    by_cases hv : v = unlistedByte <;> simp [writeByte, readByte, hv]
  | cons c m ih =>
    obtain ⟨k, u⟩ := c
    have w' := w
    rw [memoryWfFrom_cons] at w'
    obtain ⟨-, -, -, h4⟩ := w'
    unfold writeByte
    split_ifs with hk hv he hv
    · rw [hv]
      have hne : k ≠ a := by omega
      simp only [readByte, if_neg hne]
      exact readByte_below h4 (by omega)
    · simp [readByte]
    · rw [hv]
      exact readByte_below h4 (by omega)
    · simp [readByte]
    · have hne : k ≠ a := fun e => he e.symm
      simp only [readByte, if_neg hne]
      exact ih h4

theorem readByte_writeByte_other (m : Memory) {a b : Nat} (h : a ≠ b) (v : Byte) :
    readByte (writeByte m a v) b = readByte m b := by
  induction m with
  | nil => by_cases hv : v = unlistedByte <;> simp [writeByte, readByte, hv, h]
  | cons c m ih =>
    obtain ⟨k, u⟩ := c
    unfold writeByte
    split_ifs with hk hv he hv
    · rfl
    · simp [readByte, h]
    · have hne : k ≠ b := by omega
      simp [readByte, hne]
    · have hne : k ≠ b := by omega
      simp [readByte, hne, h]
    · simp only [readByte, ih]

theorem placeSlot_wf {m : Memory} (w : m.wf = true) {a : Nat} (ha : a + slotBytes ≤ memSize)
    (b : Bytes4) : (placeSlot m a b).wf = true := by
  have h : a + 4 ≤ 4096 := ha
  refine writeByte_wfFrom (writeByte_wfFrom (writeByte_wfFrom (writeByte_wfFrom w ?_ ?_ _) ?_ ?_ _)
    ?_ ?_ _) ?_ ?_ _ <;> unfold memSize at * <;> omega

theorem placeImage_wf {m : Memory} (w : m.wf = true) {a : Nat} (image : List Bytes4)
    (ha : a + slotBytes * image.length ≤ memSize) : (placeImage m a image).wf = true := by
  induction image generalizing m a with
  | nil => exact w
  | cons b rest ih =>
    have h : a + 4 * (rest.length + 1) ≤ 4096 := ha
    refine ih (placeSlot_wf w (by show a + 4 ≤ 4096; omega) b) ?_
    show a + 4 + 4 * rest.length ≤ 4096
    omega

/-- R9: where `MemRead` is defined, and what it gives. -/
theorem memRead4_eq_some {m : Memory} {a : Nat} (h : a + 4 ≤ 4096) :
    memRead4 m a = some ⟨readByte m a, readByte m (a + 1), readByte m (a + 2), readByte m (a + 3)⟩ :=
  if_pos h

theorem memRead4_eq_none {m : Memory} {a : Nat} (h : 4096 < a + 4) : memRead4 m a = none :=
  if_neg (by show ¬ a + 4 ≤ 4096; omega)

theorem memRead4_placeSlot {m : Memory} (w : m.wf = true) {a : Nat} (ha : a + slotBytes ≤ memSize)
    (b : Bytes4) : memRead4 (placeSlot m a b) a = some b := by
  have h : a + 4 ≤ 4096 := ha
  have w0 : memoryWfFrom 0 (writeByte m a b.b0) = true := writeByte_wfFrom w (by omega) (by show a < 4096; omega) _
  have w1 : memoryWfFrom 0 (writeByte (writeByte m a b.b0) (a + 1) b.b1) = true :=
    writeByte_wfFrom w0 (by omega) (by show a + 1 < 4096; omega) _
  have w2 := writeByte_wfFrom w1 (a := a + 2) (by omega) (by show a + 2 < 4096; omega) b.b2
  have e0 : readByte (placeSlot m a b) a = b.b0 := by
    unfold placeSlot
    rw [readByte_writeByte_other _ (by omega), readByte_writeByte_other _ (by omega),
      readByte_writeByte_other _ (by omega), readByte_writeByte_same w]
  have e1 : readByte (placeSlot m a b) (a + 1) = b.b1 := by
    unfold placeSlot
    rw [readByte_writeByte_other _ (by omega), readByte_writeByte_other _ (by omega),
      readByte_writeByte_same w0]
  have e2 : readByte (placeSlot m a b) (a + 2) = b.b2 := by
    unfold placeSlot
    rw [readByte_writeByte_other _ (by omega), readByte_writeByte_same w1]
  have e3 : readByte (placeSlot m a b) (a + 3) = b.b3 := by
    unfold placeSlot
    rw [readByte_writeByte_same w2]
  rw [memRead4_eq_some h, e0, e1, e2, e3]

end Sys2Proof.Machine
end

