-- ==== Sys2Proof/Laws/State.lean ====
section
/-! SUPPORT. Each update of State, field by field: later proofs never unfold a record update. -/

namespace Sys2Proof.Machine

variable (s : State)

@[simp] theorem State.writeReg_regs (q : RegId) (v : Byte) : (s.writeReg q v).regs = s.regs.set q v := rfl
@[simp] theorem State.writeReg_pc (q : RegId) (v : Byte) : (s.writeReg q v).pc = s.pc := rfl
@[simp] theorem State.writeReg_rs (q : RegId) (v : Byte) : (s.writeReg q v).rs = s.rs := rfl
@[simp] theorem State.writeReg_fr (q : RegId) (v : Byte) : (s.writeReg q v).fr = s.fr := rfl
@[simp] theorem State.writeReg_ic (q : RegId) (v : Byte) : (s.writeReg q v).ic = s.ic := rfl
@[simp] theorem State.writeReg_mem (q : RegId) (v : Byte) : (s.writeReg q v).mem = s.mem := rfl
@[simp] theorem State.writeReg_cfg (q : RegId) (v : Byte) : (s.writeReg q v).cfg = s.cfg := rfl
@[simp] theorem State.writeReg_events (q : RegId) (v : Byte) : (s.writeReg q v).events = s.events := rfl
@[simp] theorem State.writeReg_host (q : RegId) (v : Byte) : (s.writeReg q v).host = s.host := rfl

@[simp] theorem State.emit_regs (e : HostEvent) : (s.emit e).regs = s.regs := rfl
@[simp] theorem State.emit_pc (e : HostEvent) : (s.emit e).pc = s.pc := rfl
@[simp] theorem State.emit_rs (e : HostEvent) : (s.emit e).rs = s.rs := rfl
@[simp] theorem State.emit_fr (e : HostEvent) : (s.emit e).fr = s.fr := rfl
@[simp] theorem State.emit_ic (e : HostEvent) : (s.emit e).ic = s.ic := rfl
@[simp] theorem State.emit_mem (e : HostEvent) : (s.emit e).mem = s.mem := rfl
@[simp] theorem State.emit_cfg (e : HostEvent) : (s.emit e).cfg = s.cfg := rfl
@[simp] theorem State.emit_events (e : HostEvent) : (s.emit e).events = s.events ++ [e] := rfl
@[simp] theorem State.emit_host (e : HostEvent) : (s.emit e).host = s.host := rfl

@[simp] theorem State.advance_regs : (s.advance).regs = s.regs := rfl
@[simp] theorem State.advance_pc : (s.advance).pc = s.pc + 4 := rfl
@[simp] theorem State.advance_rs : (s.advance).rs = s.rs := rfl
@[simp] theorem State.advance_fr : (s.advance).fr = s.fr := rfl
@[simp] theorem State.advance_ic : (s.advance).ic = s.ic := rfl
@[simp] theorem State.advance_mem : (s.advance).mem = s.mem := rfl
@[simp] theorem State.advance_cfg : (s.advance).cfg = s.cfg := rfl
@[simp] theorem State.advance_events : (s.advance).events = s.events := rfl
@[simp] theorem State.advance_host : (s.advance).host = s.host := rfl

@[simp] theorem State.skipUnless_regs (b : Bool) : (s.skipUnless b).regs = s.regs := rfl
@[simp] theorem State.skipUnless_pc (b : Bool) : (s.skipUnless b).pc = if b then s.pc + 4 else s.pc + 8 := rfl
@[simp] theorem State.skipUnless_rs (b : Bool) : (s.skipUnless b).rs = s.rs := rfl
@[simp] theorem State.skipUnless_fr (b : Bool) : (s.skipUnless b).fr = s.fr := rfl
@[simp] theorem State.skipUnless_ic (b : Bool) : (s.skipUnless b).ic = s.ic := rfl
@[simp] theorem State.skipUnless_mem (b : Bool) : (s.skipUnless b).mem = s.mem := rfl
@[simp] theorem State.skipUnless_cfg (b : Bool) : (s.skipUnless b).cfg = s.cfg := rfl
@[simp] theorem State.skipUnless_events (b : Bool) : (s.skipUnless b).events = s.events := rfl
@[simp] theorem State.skipUnless_host (b : Bool) : (s.skipUnless b).host = s.host := rfl

@[simp] theorem State.raise_regs (c : FaultCause) : (s.raise c).regs = s.regs := rfl
@[simp] theorem State.raise_pc (c : FaultCause) : (s.raise c).pc = s.pc := rfl
@[simp] theorem State.raise_rs (c : FaultCause) : (s.raise c).rs = .faulted := rfl
@[simp] theorem State.raise_fr (c : FaultCause) : (s.raise c).fr = some ⟨c, s.pc⟩ := rfl
@[simp] theorem State.raise_ic (c : FaultCause) : (s.raise c).ic = s.ic := rfl
@[simp] theorem State.raise_mem (c : FaultCause) : (s.raise c).mem = s.mem := rfl
@[simp] theorem State.raise_cfg (c : FaultCause) : (s.raise c).cfg = s.cfg := rfl
@[simp] theorem State.raise_events (c : FaultCause) : (s.raise c).events = s.events ++ [.fault c s.pc] := rfl
@[simp] theorem State.raise_host (c : FaultCause) : (s.raise c).host = s.host := rfl

@[simp] theorem State.afterKey_regs (k : Key) : (s.afterKey k).regs = s.regs := rfl
@[simp] theorem State.afterKey_pc (k : Key) : (s.afterKey k).pc = s.pc := rfl
@[simp] theorem State.afterKey_rs (k : Key) : (s.afterKey k).rs = s.rs := rfl
@[simp] theorem State.afterKey_fr (k : Key) : (s.afterKey k).fr = s.fr := rfl
@[simp] theorem State.afterKey_ic (k : Key) : (s.afterKey k).ic = s.ic := rfl
@[simp] theorem State.afterKey_mem (k : Key) : (s.afterKey k).mem = s.mem := rfl
@[simp] theorem State.afterKey_cfg (k : Key) : (s.afterKey k).cfg = s.cfg := rfl
@[simp] theorem State.afterKey_events (k : Key) : (s.afterKey k).events = s.events ++ [.key k (s.keyAnswer k)] := rfl
@[simp] theorem State.afterKey_host (k : Key) : (s.afterKey k).host = ⟨s.host.ticks, s.host.keys.tail, s.host.randoms, s.host.asked + 1⟩ := rfl

@[simp] theorem State.afterRandom_regs (n : Byte) : (s.afterRandom n).regs = s.regs := rfl
@[simp] theorem State.afterRandom_pc (n : Byte) : (s.afterRandom n).pc = s.pc := rfl
@[simp] theorem State.afterRandom_rs (n : Byte) : (s.afterRandom n).rs = s.rs := rfl
@[simp] theorem State.afterRandom_fr (n : Byte) : (s.afterRandom n).fr = s.fr := rfl
@[simp] theorem State.afterRandom_ic (n : Byte) : (s.afterRandom n).ic = s.ic := rfl
@[simp] theorem State.afterRandom_mem (n : Byte) : (s.afterRandom n).mem = s.mem := rfl
@[simp] theorem State.afterRandom_cfg (n : Byte) : (s.afterRandom n).cfg = s.cfg := rfl
@[simp] theorem State.afterRandom_events (n : Byte) : (s.afterRandom n).events = s.events ++ [.random n (s.randomAnswer n)] := rfl
@[simp] theorem State.afterRandom_host (n : Byte) : (s.afterRandom n).host = ⟨s.host.ticks, s.host.keys, s.host.randoms.tail, s.host.asked + 1⟩ := rfl

@[simp] theorem State.afterTickChance_regs : (s.afterTickChance).regs = s.regs := rfl
@[simp] theorem State.afterTickChance_pc : (s.afterTickChance).pc = s.pc := rfl
@[simp] theorem State.afterTickChance_rs : (s.afterTickChance).rs = s.rs := rfl
@[simp] theorem State.afterTickChance_fr : (s.afterTickChance).fr = s.fr := rfl
@[simp] theorem State.afterTickChance_ic : (s.afterTickChance).ic = s.ic := rfl
@[simp] theorem State.afterTickChance_mem : (s.afterTickChance).mem = s.mem := rfl
@[simp] theorem State.afterTickChance_cfg : (s.afterTickChance).cfg = s.cfg := rfl
@[simp] theorem State.afterTickChance_events : (s.afterTickChance).events = s.events := rfl
@[simp] theorem State.afterTickChance_host : (s.afterTickChance).host = ⟨s.host.ticks.tail, s.host.keys, s.host.randoms, s.host.asked + 1⟩ := rfl

@[simp] theorem State.endRun_regs : s.endRun.regs = s.regs := rfl
@[simp] theorem State.endRun_pc : s.endRun.pc = s.pc := rfl
@[simp] theorem State.endRun_rs : s.endRun.rs = .idle := rfl
@[simp] theorem State.endRun_fr : s.endRun.fr = s.fr := rfl
@[simp] theorem State.endRun_ic : s.endRun.ic = s.ic := rfl
@[simp] theorem State.endRun_mem : s.endRun.mem = s.mem := rfl
@[simp] theorem State.endRun_cfg : s.endRun.cfg = s.cfg := rfl
@[simp] theorem State.endRun_events : s.endRun.events = s.events := rfl
@[simp] theorem State.endRun_host : s.endRun.host = s.host := rfl

@[simp] theorem State.retire_regs : s.retire.regs = s.regs := by unfold State.retire; split <;> rfl
@[simp] theorem State.retire_pc : s.retire.pc = s.pc := by unfold State.retire; split <;> rfl
@[simp] theorem State.retire_rs : s.retire.rs = s.rs := by unfold State.retire; split <;> rfl
@[simp] theorem State.retire_fr : s.retire.fr = s.fr := by unfold State.retire; split <;> rfl
@[simp] theorem State.retire_mem : s.retire.mem = s.mem := by unfold State.retire; split <;> rfl
@[simp] theorem State.retire_cfg : s.retire.cfg = s.cfg := by unfold State.retire; split <;> rfl
@[simp] theorem State.retire_events : s.retire.events = s.events := by unfold State.retire; split <;> rfl
@[simp] theorem State.retire_host : s.retire.host = s.host := by unfold State.retire; split <;> rfl

theorem State.retire_ic_completed (h : s.rs ≠ .faulted) : s.retire.ic = s.ic + 1 := by
  simp [State.retire, h]

theorem State.retire_ic_faulted (h : s.rs = .faulted) : s.retire.ic = s.ic := by
  simp [State.retire, h]

@[simp] theorem State.countTick_pc : s.countTick.pc = s.pc := by unfold State.countTick; split <;> rfl
@[simp] theorem State.countTick_rs : s.countTick.rs = s.rs := by unfold State.countTick; split <;> rfl
@[simp] theorem State.countTick_fr : s.countTick.fr = s.fr := by unfold State.countTick; split <;> rfl
@[simp] theorem State.countTick_ic : s.countTick.ic = s.ic := by unfold State.countTick; split <;> rfl
@[simp] theorem State.countTick_mem : s.countTick.mem = s.mem := by unfold State.countTick; split <;> rfl
@[simp] theorem State.countTick_cfg : s.countTick.cfg = s.cfg := by unfold State.countTick; split <;> rfl
@[simp] theorem State.countTick_events : s.countTick.events = s.events := by unfold State.countTick; split <;> rfl
@[simp] theorem State.countTick_host : s.countTick.host = s.host := by unfold State.countTick; split <;> rfl

/-! The registers (R9, R20). -/

@[simp] theorem State.readReg_writeReg_same (q : RegId) (v : Byte) : (s.writeReg q v).readReg q = v := by
  simp [State.readReg]

theorem State.readReg_writeReg_other {p q : RegId} (h : q ≠ p) (v : Byte) :
    (s.writeReg q v).readReg p = s.readReg p := by
  have : q.val ≠ p.val := fun e => h (Fin.ext e)
  simp [State.readReg, this]

theorem State.readReg_congr {s t : State} (h : s.regs = t.regs) (q : RegId) : s.readReg q = t.readReg q := by
  simp [State.readReg, h]

theorem State.readReg_countTick_other {q : RegId} (h : s.cfg.tickReg ≠ some q) :
    s.countTick.readReg q = s.readReg q := by
  unfold State.countTick
  split
  · rfl
  · next t ht => exact s.readReg_writeReg_other (fun e => h (by rw [ht, e])) _

end Sys2Proof.Machine
end

