-- ==== Sys2Proof/Laws/Ops.lean ====
section
/-! SUPPORT. What each shared operation can do, said once: the provers cite these instead of unfolding
the operations. -/

namespace Sys2Proof.Machine

/-! Operand fields. -/

theorem regField_toNat (q : RegId) : (regField q).toNat = q.val := by
  have : q.val < 12 := q.isLt
  simp only [regField, BitVec.toNat_ofNat]
  omega

@[simp] theorem regOf_regField (q : RegId) : regOf (regField q) = some q := by
  have h : (regField q).toNat < numRegs := by rw [regField_toNat]; exact q.isLt
  simp only [regOf, dif_pos h, Option.some.injEq]
  exact Fin.ext (regField_toNat q)

theorem regField_injective {p q : RegId} (h : regField p = regField q) : p = q :=
  Fin.ext (by rw [← regField_toNat p, h, regField_toNat])

/-- The legal register fields are those that name a register (R66). -/
theorem regFieldOk_iff (f : RegField) : regFieldOk f = true ↔ ∃ q, f = regField q := by
  constructor
  · intro h
    refine ⟨⟨f.toNat, of_decide_eq_true h⟩, BitVec.eq_of_toNat_eq ?_⟩
    rw [regField_toNat]
  · rintro ⟨q, rfl⟩
    exact decide_eq_true (by rw [regField_toNat]; exact q.isLt)

@[simp] theorem keyOf_keyField (k : Key) : keyOf (keyField k) = some k := by cases k <;> rfl

/-- The legal key fields are those that name a key (R72). -/
theorem keyFieldOk_iff (f : KeyField) : keyFieldOk f = true ↔ ∃ k, f = keyField k := by
  constructor
  · intro h
    have hf : f.toNat < 5 := of_decide_eq_true h
    have : f.toNat = 0 ∨ f.toNat = 1 ∨ f.toNat = 2 ∨ f.toNat = 3 ∨ f.toNat = 4 := by omega
    rcases this with h | h | h | h | h
    · exact ⟨.action, BitVec.eq_of_toNat_eq h⟩
    · exact ⟨.up, BitVec.eq_of_toNat_eq h⟩
    · exact ⟨.down, BitVec.eq_of_toNat_eq h⟩
    · exact ⟨.left, BitVec.eq_of_toNat_eq h⟩
    · exact ⟨.right, BitVec.eq_of_toNat_eq h⟩
  · rintro ⟨k, rfl⟩
    cases k <;> rfl

variable (s : State)

/-- What a register operand comes to: the register its field names, or ILLEGAL_OPERAND. -/
theorem withReg_cases (f : RegField) (body : RegId → Out) :
    (∃ q, f = regField q ∧ withReg f s body = body q) ∨
      (regFieldOk f = false ∧ withReg f s body = .next (s.raise .illegalOperand)) := by
  by_cases h : regFieldOk f = true
  · obtain ⟨q, rfl⟩ := (regFieldOk_iff f).mp h
    exact .inl ⟨q, rfl, by simp [withReg]⟩
  · have h' : ¬ f.toNat < numRegs := fun e => h (decide_eq_true e)
    exact .inr ⟨by simpa using h, by simp [withReg, regOf, h']⟩

theorem withReg_regField (q : RegId) (body : RegId → Out) : withReg (regField q) s body = body q := by
  simp [withReg]

/-- What a key operand comes to: the key its field names, or ILLEGAL_OPERAND. -/
theorem withKey_cases (f : KeyField) (body : Key → Out) :
    (∃ k, f = keyField k ∧ withKey f s body = body k) ∨
      (keyFieldOk f = false ∧ withKey f s body = .next (s.raise .illegalOperand)) := by
  by_cases h : keyFieldOk f = true
  · obtain ⟨k, rfl⟩ := (keyFieldOk_iff f).mp h
    exact .inl ⟨k, rfl, by simp [withKey]⟩
  · refine .inr ⟨by simpa using h, ?_⟩
    have : keyOf f = none := by
      unfold keyOf
      unfold keyFieldOk at h
      split <;> simp_all
    simp [withKey, this]

theorem withKey_keyField (k : Key) (body : Key → Out) : withKey (keyField k) s body = body k := by
  simp [withKey]

/-! The shared shapes. -/

theorem regRegOp_eq (op : Byte → Byte → Byte) (d e : RegId) :
    regRegOp op (regField d) (regField e) s =
      .next (s.writeReg d (op (s.readReg d) (s.readReg e))).advance := by
  simp only [regRegOp, withReg_regField]

theorem divideOp_eq (op : Byte → Byte → Byte) (d e : RegId) :
    divideOp op (regField d) (regField e) s =
      .next (if s.readReg e = 0#8 then s.raise .divZero
        else (s.writeReg d (op (s.readReg d) (s.readReg e))).advance) := by
  simp only [divideOp, withReg_regField]

theorem regLitOp_eq (op : Byte → Byte → Byte) (d : RegId) (n : Byte) :
    regLitOp op (regField d) n s = .next (s.writeReg d (op (s.readReg d) n)).advance := by
  simp only [regLitOp, withReg_regField]

theorem skipOnRegs_eq (c : Comparison) (d e : RegId) :
    skipOnRegs c (regField d) (regField e) s =
      .next (s.skipUnless (holds c (s.readReg d) (s.readReg e))) := by
  simp only [skipOnRegs, withReg_regField]

theorem skipOnLit_eq (c : Comparison) (d : RegId) (n : Byte) :
    skipOnLit c (regField d) n s = .next (s.skipUnless (holds c (s.readReg d) n)) := by
  simp only [skipOnLit, withReg_regField]

/-- The sprite instructions never stop the model: the range check comes before `MemRead` (R113). -/
theorem drawSprite_cases (a : Nat) :
    (4096 < a + 4 ∧ drawSprite a s = .next (s.raise .spriteRange)) ∨
      (a + 4 ≤ 4096 ∧ drawSprite a s =
        .next (s.emit (.sprite (s.readReg 0) (s.readReg 1) (s.readReg 11) (s.slotAt a))).advance) := by
  by_cases h : 4096 < a + 4
  · exact .inl ⟨h, if_pos h⟩
  · have h' : a + 4 ≤ 4096 := by omega
    refine .inr ⟨h', ?_⟩
    have h'' : ¬ a + slotBytes > memSize := h
    simp only [drawSprite, if_neg h'', memRead4_eq_some h']
    rfl

theorem withPalette_cases (n : Byte) (rest : State) :
    (s.cfg.paletteSize ≤ n.toNat ∧ withPalette n s rest = .next (s.raise .paletteRange)) ∨
      (n.toNat < s.cfg.paletteSize ∧ withPalette n s rest = .next rest) := by
  by_cases h : n.toNat ≥ s.cfg.paletteSize
  · exact .inl ⟨h, by simp [withPalette, h]⟩
  · exact .inr ⟨by omega, by simp only [withPalette, if_neg h]⟩

/-! `SPRITE_IMM_MAP` (R6, D13). -/

/-- The empty table is the identity, the default of R6. -/
@[simp] theorem spriteImmMap_nil (i : Addr12) : spriteImmMap [] i = i := rfl

theorem spriteImmMap_map {f : Addr12 → Addr12} {keys : List Addr12} {i : Addr12} (h : i ∈ keys) :
    spriteImmMap (keys.map fun k => (k, f k)) i = f i := by
  induction keys with
  | nil => cases h
  | cons k rest ih =>
    by_cases hk : k = i
    · simp [spriteImmMap, hk]
    · have : i ∈ rest := by simpa [Ne.symm hk] using h
      simp [spriteImmMap, hk, ih this]

/-- Every function from 12 bits to 12 bits is some table: the parameter leaves none out. -/
theorem spriteImmMap_complete (f : Addr12 → Addr12) : ∃ table, ∀ i, spriteImmMap table i = f i :=
  ⟨(((List.finRange (2 ^ 12)).map BitVec.ofFin).map fun k => (k, f k)), fun i =>
    spriteImmMap_map (List.mem_map.mpr ⟨i.toFin, List.mem_finRange _, rfl⟩)⟩

/-! The host's answers. -/

/-- The host's duty for `random` (R186 item 2). -/
theorem randomAnswer_lt {n : Byte} (h : n ≠ 0#8) : (s.randomAnswer n).toNat < n.toNat := by
  have hn : 0 < n.toNat := by
    rcases Nat.eq_zero_or_pos n.toNat with e | e
    · exact absurd (BitVec.eq_of_toNat_eq e) h
    · exact e
  unfold State.randomAnswer
  split <;> simpa [BitVec.toNat_umod] using Nat.mod_lt _ hn

/-- The host's liberty for `random`: any value below the bound can be the answer (R186 item 3). -/
theorem randomAnswer_settled {n v : Byte} {rest : List Byte} (h : s.host.randoms = v :: rest)
    (hv : v.toNat < n.toNat) : s.randomAnswer n = v := by
  apply BitVec.eq_of_toNat_eq
  simp [State.randomAnswer, h, BitVec.toNat_umod, Nat.mod_eq_of_lt hv]

/-- The host's liberty for `key` (R186 item 3). -/
theorem keyAnswer_settled {k : Key} {b : Bool} {rest : List Bool} (h : s.host.keys = b :: rest) :
    s.keyAnswer k = b := by simp [State.keyAnswer, h]

theorem await_cases : s.await = s.afterTickChance.tick ∨ s.await = s.afterTickChance := by
  unfold State.await
  split
  · exact .inl rfl
  · exact .inr rfl

theorem tick_idle (h : s.rs = .idle) :
    s.tick = { s with pc := 0, ic := 0, rs := .running, events := s.events ++ [.tick] } := by
  simp [State.tick, h]

theorem tick_not_idle (h : s.rs ≠ .idle) : s.tick = s := by
  unfold State.tick
  split <;> simp_all

/-! Before the instruction's rule. -/

theorem watchdogExpired_iff :
    s.watchdogExpired = true ↔ ∃ limit, s.cfg.watchdogLimit = some limit ∧ limit ≤ s.ic := by
  unfold State.watchdogExpired
  split <;> simp_all

/-- The state can fetch unless one of the checks of R91 and R92 says otherwise. -/
theorem canFetch_iff : s.CanFetch ↔
    s.rs = .running ∧ s.watchdogExpired = false ∧ s.pc % 4 = 0 ∧ s.pc + 4 ≤ 4096 := by
  have hw : s.watchdogExpired = false ↔ ∀ limit, s.cfg.watchdogLimit = some limit → s.ic < limit := by
    rw [← Bool.not_eq_true, watchdogExpired_iff]
    constructor
    · intro h l hl
      by_contra hc
      exact h ⟨l, hl, by omega⟩
    · rintro h ⟨l, hl, hc⟩
      have := h l hl
      omega
  rw [hw]
  exact ⟨fun h => ⟨h.1, h.2, h.3, h.4⟩, fun h => ⟨h.1, h.2.1, h.2.2.1, h.2.2.2⟩⟩

/-- Fetch and decode of a slot that is in memory (R92). -/
theorem fetchDecode_inRange (ha : s.pc % 4 = 0) (hr : s.pc + 4 ≤ 4096) :
    fetchDecode s = match decode (s.slotAt s.pc) with
      | .instr i => .instr i
      | .illegal c => .raises (illegalCause c) := by
  have h1 : ¬ s.pc % slotBytes ≠ 0 := by simpa [slotBytes] using ha
  have h2 : ¬ s.pc + slotBytes > memSize := by show ¬ s.pc + 4 > 4096; omega
  simp only [fetchDecode, if_neg h1, if_neg h2, memRead4_eq_some hr]
  rfl

/-- What the part of a step before the instruction's rule can come to; it never stops the model. -/
theorem beginStep_cases :
    (∃ c, beginStep s = .raises c) ∨
      (∃ i, beginStep s = .instr i ∧ s.watchdogExpired = false ∧ s.pc % 4 = 0 ∧ s.pc + 4 ≤ 4096 ∧
        decode (s.slotAt s.pc) = .instr i) := by
  unfold beginStep
  split_ifs with hw
  · exact .inl ⟨_, rfl⟩
  · by_cases ha : s.pc % 4 = 0
    · by_cases hr : s.pc + 4 ≤ 4096
      · rw [fetchDecode_inRange s ha hr]
        cases hd : decode (s.slotAt s.pc) with
        | illegal c => exact .inl ⟨_, rfl⟩
        | instr i => exact .inr ⟨i, rfl, by simpa using hw, ha, hr, rfl⟩
      · refine .inl ⟨.pcRange, ?_⟩
        have h2 : s.pc + slotBytes > memSize := by show s.pc + 4 > 4096; omega
        have h1 : ¬ s.pc % slotBytes ≠ 0 := by simpa [slotBytes] using ha
        simp only [fetchDecode, if_neg h1, if_pos h2]
    · exact .inl ⟨.pcMisaligned, if_pos ha⟩

/-- A state that executes `i` gets past the checks with it. -/
theorem beginStep_of_executes {i : Instr} (h : s.Executes i) : beginStep s = .instr i := by
  obtain ⟨hc, hd⟩ := h
  obtain ⟨-, hw, ha, hr⟩ := (canFetch_iff s).mp hc
  simp [beginStep, hw, fetchDecode_inRange s ha hr, hd]

theorem executes_of_beginStep {i : Instr} (hr : s.rs = .running) (h : beginStep s = .instr i) :
    s.Executes i := by
  rcases beginStep_cases s with ⟨c, hc⟩ | ⟨j, hj, hw, ha, hp, hd⟩
  · rw [hc] at h
    cases h
  · rw [hj] at h
    cases h
    exact ⟨(canFetch_iff s).mpr ⟨hr, hw, ha, hp⟩, hd⟩

end Sys2Proof.Machine
end

