-- ==== Sys2Proof/Laws/PerInstr.lean ====
section
/-! SUPPORT. Statements about every instruction as syntax, one lemma per constructor. -/

/-- The encoding of the instruction has a known opcode, and the encoder writes 0 in every bit that is no
field bit of the opcode's format (spec/30_encoding.md R62, R63, R71). -/
def Sys2Proof.Laws.EncodeFiller.Statement (i : Sys2Proof.Instr) : Prop :=
  ∃ f, Sys2Proof.formatOf (Sys2Proof.encode i).b0 = some f ∧
    Sys2Proof.fillersClear f (Sys2Proof.encode i) = true

namespace Sys2Proof.Laws

theorem EncodeFiller.halt : EncodeFiller.Statement .halt :=
  ⟨.n, rfl, rfl⟩

theorem EncodeFiller.jmp (addr : Addr12) : EncodeFiller.Statement (.jmp addr) :=
  ⟨.a, rfl, fillersClear_encodeA _ addr⟩

theorem EncodeFiller.print (r : RegField) : EncodeFiller.Statement (.print r) :=
  ⟨.r, rfl, by simp [fillersClear, fillerClear, encode]⟩

theorem EncodeFiller.clear (n : Byte) : EncodeFiller.Statement (.clear n) :=
  ⟨.l, rfl, fillersClear_encodeL _ n⟩

theorem EncodeFiller.color (n : Byte) : EncodeFiller.Statement (.color n) :=
  ⟨.l, rfl, fillersClear_encodeL _ n⟩

theorem EncodeFiller.spra (addr : Addr12) : EncodeFiller.Statement (.spra addr) :=
  ⟨.a, rfl, fillersClear_encodeA _ addr⟩

theorem EncodeFiller.spri (addr : Addr12) : EncodeFiller.Statement (.spri addr) :=
  ⟨.a, rfl, fillersClear_encodeA _ addr⟩

theorem EncodeFiller.set (r q : RegField) : EncodeFiller.Statement (.set r q) :=
  ⟨.rfr, rfl, fillersClear_encodeRFR _ _ r q⟩

theorem EncodeFiller.add (r q : RegField) : EncodeFiller.Statement (.add r q) :=
  ⟨.rfr, rfl, fillersClear_encodeRFR _ _ r q⟩

theorem EncodeFiller.sub (r q : RegField) : EncodeFiller.Statement (.sub r q) :=
  ⟨.rfr, rfl, fillersClear_encodeRFR _ _ r q⟩

theorem EncodeFiller.mul (r q : RegField) : EncodeFiller.Statement (.mul r q) :=
  ⟨.rfr, rfl, fillersClear_encodeRFR _ _ r q⟩

theorem EncodeFiller.div (r q : RegField) : EncodeFiller.Statement (.div r q) :=
  ⟨.rfr, rfl, fillersClear_encodeRFR _ _ r q⟩

theorem EncodeFiller.mod (r q : RegField) : EncodeFiller.Statement (.mod r q) :=
  ⟨.rfr, rfl, fillersClear_encodeRFR _ _ r q⟩

theorem EncodeFiller.and (r q : RegField) : EncodeFiller.Statement (.and r q) :=
  ⟨.rfr, rfl, fillersClear_encodeRFR _ _ r q⟩

theorem EncodeFiller.or (r q : RegField) : EncodeFiller.Statement (.or r q) :=
  ⟨.rfr, rfl, fillersClear_encodeRFR _ _ r q⟩

theorem EncodeFiller.xor (r q : RegField) : EncodeFiller.Statement (.xor r q) :=
  ⟨.rfr, rfl, fillersClear_encodeRFR _ _ r q⟩

theorem EncodeFiller.seti (r : RegField) (n : Byte) : EncodeFiller.Statement (.seti r n) :=
  ⟨.rl, rfl, fillersClear_encodeRL _ r n⟩

theorem EncodeFiller.addi (r : RegField) (n : Byte) : EncodeFiller.Statement (.addi r n) :=
  ⟨.rl, rfl, fillersClear_encodeRL _ r n⟩

theorem EncodeFiller.rand (r : RegField) (n : Byte) : EncodeFiller.Statement (.rand r n) :=
  ⟨.rl, rfl, fillersClear_encodeRL _ r n⟩

theorem EncodeFiller.ifeq (r q : RegField) : EncodeFiller.Statement (.ifeq r q) :=
  ⟨.rfr, rfl, fillersClear_encodeRFR _ _ r q⟩

theorem EncodeFiller.ifne (r q : RegField) : EncodeFiller.Statement (.ifne r q) :=
  ⟨.rfr, rfl, fillersClear_encodeRFR _ _ r q⟩

theorem EncodeFiller.iflt (r q : RegField) : EncodeFiller.Statement (.iflt r q) :=
  ⟨.rfr, rfl, fillersClear_encodeRFR _ _ r q⟩

theorem EncodeFiller.ifle (r q : RegField) : EncodeFiller.Statement (.ifle r q) :=
  ⟨.rfr, rfl, fillersClear_encodeRFR _ _ r q⟩

theorem EncodeFiller.ifgt (r q : RegField) : EncodeFiller.Statement (.ifgt r q) :=
  ⟨.rfr, rfl, fillersClear_encodeRFR _ _ r q⟩

theorem EncodeFiller.ifge (r q : RegField) : EncodeFiller.Statement (.ifge r q) :=
  ⟨.rfr, rfl, fillersClear_encodeRFR _ _ r q⟩

theorem EncodeFiller.ifeqi (r : RegField) (n : Byte) : EncodeFiller.Statement (.ifeqi r n) :=
  ⟨.rl, rfl, fillersClear_encodeRL _ r n⟩

theorem EncodeFiller.ifnei (r : RegField) (n : Byte) : EncodeFiller.Statement (.ifnei r n) :=
  ⟨.rl, rfl, fillersClear_encodeRL _ r n⟩

theorem EncodeFiller.key (k : KeyField) : EncodeFiller.Statement (.key k) :=
  ⟨.k, rfl, by simp [fillersClear, fillerClear, encode]⟩

end Sys2Proof.Laws
end

