-- ==== Sys2Proof/Laws/Step.lean ====
section
/-! SUPPORT. Runs of several steps, and steps outside a run. -/

namespace Sys2Proof.Machine

/-- Outside a run a step is the host's chance to send `tick` (R187). -/
theorem step_of_not_running {s : State} (h : s.rs ≠ .running) : step s = .next s.await := by
  unfold step
  split <;> simp_all

theorem reaches_zero {s t : State} : s.Reaches 0 t ↔ s = t := by
  unfold State.Reaches
  constructor
  · intro h
    injection h
  · rintro rfl
    rfl

theorem reaches_succ {s t : State} {k : Nat} :
    s.Reaches (k + 1) t ↔ ∃ u, step s = .next u ∧ u.Reaches k t := by
  have hcore : Sys2Proof.core.step s = step s := rfl
  unfold State.Reaches
  simp only [Host.Core.run, hcore]
  cases h : step s with
  | next u =>
    constructor
    · intro hr
      exact ⟨u, rfl, hr⟩
    · rintro ⟨v, hv, hr⟩
      injection hv with hv
      exact hv ▸ hr
  | fault r => simp
  | refused r => simp

/-- A tick changes neither registers, memory nor parameters (R90). -/
theorem await_keeps (s : State) :
    s.await.regs = s.regs ∧ s.await.mem = s.mem ∧ s.await.cfg = s.cfg ∧ s.await.fr = s.fr := by
  have ht : ∀ u : State, u.tick.regs = u.regs ∧ u.tick.mem = u.mem ∧ u.tick.cfg = u.cfg ∧ u.tick.fr = u.fr := by
    intro u
    unfold State.tick
    split <;> exact ⟨rfl, rfl, rfl, rfl⟩
  rcases await_cases s with h | h <;> rw [h]
  · simpa using ht s.afterTickChance
  · simp

end Sys2Proof.Machine
end

