-- ==== Sys2Proof/Tests/Slice0.lean ====
section
/-! SUPPORT. Tests. Expected results come from spec/95_test_vectors.md (the vector's id stands in the
comment), from the worked example of the rule named, or from the rule by hand. -/

namespace Sys2Proof.Tests

open Sys2Proof Sys2Proof.Machine

/-! Small states. -/

/-- A run at `a`, with `x` and `y` set and the slot `b` at `a`. -/
def runAt (a : Nat) (x y : Byte) (b : Bytes4) : State :=
  { State.reset with
    regs := ((Vector.replicate numRegs 0#8).set 0 x).set 1 y
    pc := a
    rs := .running
    mem := placeSlot [] a b }

/-- The same, for testing a meaning by itself. -/
def xy (x y : Byte) : State := runAt 8 x y ⟨0#8, 0#8, 0#8, 0#8⟩

/-- The state after a step, where there is one. -/
def after (o : Out) : State :=
  match o with
  | .next t => t
  | .fault _ => State.reset
  | .refused _ => State.reset

/-- A register, the pc and the new events after a step. -/
def seen (o : Out) (q : RegId) : Option (Byte × Nat × List HostEvent) :=
  match o with
  | .next t => some (t.readReg q, t.pc, t.events)
  | .fault _ => none
  | .refused _ => none

/-- The status, the pc and the instruction count after a step. -/
def status (o : Out) : Option (RunStatus × Nat × Nat) :=
  match o with
  | .next t => some (t.rs, t.pc, t.ic)
  | .fault _ => none
  | .refused _ => none

/-! Well-formedness: each check refuses an ill-formed term. -/

theorem test_wf_first_register :
    Instr.wellFormed (.print 12#4) = false ∧ Instr.wellFormed (.set 12#4 0#4) = false ∧
    Instr.wellFormed (.add 13#4 0#4) = false ∧ Instr.wellFormed (.sub 14#4 0#4) = false ∧
    Instr.wellFormed (.mul 15#4 0#4) = false ∧ Instr.wellFormed (.div 12#4 0#4) = false ∧
    Instr.wellFormed (.mod 12#4 0#4) = false ∧ Instr.wellFormed (.and 12#4 0#4) = false ∧
    Instr.wellFormed (.or 12#4 0#4) = false ∧ Instr.wellFormed (.xor 12#4 0#4) = false ∧
    Instr.wellFormed (.ifeq 12#4 0#4) = false ∧ Instr.wellFormed (.ifne 12#4 0#4) = false ∧
    Instr.wellFormed (.iflt 12#4 0#4) = false ∧ Instr.wellFormed (.ifle 12#4 0#4) = false ∧
    Instr.wellFormed (.ifgt 12#4 0#4) = false ∧ Instr.wellFormed (.ifge 12#4 0#4) = false := by decide

theorem test_wf_second_register :
    Instr.wellFormed (.set 0#4 12#4) = false ∧ Instr.wellFormed (.add 0#4 13#4) = false ∧
    Instr.wellFormed (.sub 0#4 14#4) = false ∧ Instr.wellFormed (.mul 0#4 15#4) = false ∧
    Instr.wellFormed (.div 0#4 12#4) = false ∧ Instr.wellFormed (.mod 0#4 12#4) = false ∧
    Instr.wellFormed (.and 0#4 12#4) = false ∧ Instr.wellFormed (.or 0#4 12#4) = false ∧
    Instr.wellFormed (.xor 0#4 12#4) = false ∧ Instr.wellFormed (.ifeq 0#4 12#4) = false ∧
    Instr.wellFormed (.ifne 0#4 12#4) = false ∧ Instr.wellFormed (.iflt 0#4 12#4) = false ∧
    Instr.wellFormed (.ifle 0#4 12#4) = false ∧ Instr.wellFormed (.ifgt 0#4 12#4) = false ∧
    Instr.wellFormed (.ifge 0#4 12#4) = false := by decide

theorem test_wf_register_with_literal :
    Instr.wellFormed (.seti 12#4 0#8) = false ∧ Instr.wellFormed (.addi 12#4 0#8) = false ∧
    Instr.wellFormed (.rand 12#4 1#8) = false ∧ Instr.wellFormed (.ifeqi 12#4 0#8) = false ∧
    Instr.wellFormed (.ifnei 15#4 0#8) = false := by decide

theorem test_wf_key : Instr.wellFormed (.key 5#4) = false := by decide

/-- The greatest legal fields pass. -/
theorem test_wf_accepts :
    Instr.wellFormed (.set 11#4 11#4) = true ∧ Instr.wellFormed (.key 4#4) = true := by decide

/-! Decoding: one slot for each instruction, written out from R63 and R71. -/

/-- V-D-1 -/
theorem test_decode_halt : decode ⟨0x00#8, 0x00#8, 0x00#8, 0x00#8⟩ = .instr (.halt) := by decide

/-- V-D-3 -/
theorem test_decode_jmp : decode ⟨0x01#8, 0x0F#8, 0x0F#8, 0x0C#8⟩ = .instr (.jmp 4092#12) := by decide

/-- V-D-6 -/
theorem test_decode_print : decode ⟨0x02#8, 0x0B#8, 0x00#8, 0x00#8⟩ = .instr (.print 11#4) := by decide

/-- V-D-10 -/
theorem test_decode_clear : decode ⟨0x03#8, 0x00#8, 0x0F#8, 0x0F#8⟩ = .instr (.clear 255#8) := by decide

/-- V-H-7 -/
theorem test_decode_color : decode ⟨0x04#8, 0x00#8, 0x01#8, 0x00#8⟩ = .instr (.color 16#8) := by decide

/-- R113, example -/
theorem test_decode_spra : decode ⟨0x05#8, 0x00#8, 0x01#8, 0x08#8⟩ = .instr (.spra 24#12) := by decide

/-- V-D-11 -/
theorem test_decode_spri : decode ⟨0x06#8, 0x00#8, 0x03#8, 0x0C#8⟩ = .instr (.spri 60#12) := by decide

/-- V-A-34 -/
theorem test_decode_set : decode ⟨0x07#8, 0x0B#8, 0x00#8, 0x00#8⟩ = .instr (.set 11#4 0#4) := by decide

/-- V-A-3 -/
theorem test_decode_add : decode ⟨0x07#8, 0x00#8, 0x01#8, 0x01#8⟩ = .instr (.add 0#4 1#4) := by decide

/-- V-A-6 -/
theorem test_decode_sub : decode ⟨0x07#8, 0x00#8, 0x02#8, 0x01#8⟩ = .instr (.sub 0#4 1#4) := by decide

/-- V-A-9 -/
theorem test_decode_mul : decode ⟨0x07#8, 0x00#8, 0x03#8, 0x01#8⟩ = .instr (.mul 0#4 1#4) := by decide

/-- V-A-35 -/
theorem test_decode_div : decode ⟨0x07#8, 0x02#8, 0x04#8, 0x01#8⟩ = .instr (.div 2#4 1#4) := by decide

/-- P3, 0x014 -/
theorem test_decode_mod : decode ⟨0x07#8, 0x03#8, 0x05#8, 0x01#8⟩ = .instr (.mod 3#4 1#4) := by decide

/-- V-A-21 -/
theorem test_decode_and : decode ⟨0x07#8, 0x00#8, 0x06#8, 0x01#8⟩ = .instr (.and 0#4 1#4) := by decide

/-- V-A-22 -/
theorem test_decode_or : decode ⟨0x07#8, 0x00#8, 0x07#8, 0x01#8⟩ = .instr (.or 0#4 1#4) := by decide

/-- V-D-12 -/
theorem test_decode_xor : decode ⟨0x07#8, 0x00#8, 0x08#8, 0x01#8⟩ = .instr (.xor 0#4 1#4) := by decide

/-- V-L1-3 -/
theorem test_decode_seti : decode ⟨0x08#8, 0x04#8, 0x0C#8, 0x08#8⟩ = .instr (.seti 4#4 200#8) := by decide

/-- V-L1-7 -/
theorem test_decode_addi : decode ⟨0x09#8, 0x0A#8, 0x00#8, 0x01#8⟩ = .instr (.addi 10#4 1#8) := by decide

/-- R142, example -/
theorem test_decode_rand : decode ⟨0x0A#8, 0x02#8, 0x00#8, 0x06#8⟩ = .instr (.rand 2#4 6#8) := by decide

/-- V-C-1 -/
theorem test_decode_ifeq : decode ⟨0x0B#8, 0x00#8, 0x00#8, 0x01#8⟩ = .instr (.ifeq 0#4 1#4) := by decide

/-- V-C-3 -/
theorem test_decode_ifne : decode ⟨0x0B#8, 0x00#8, 0x01#8, 0x01#8⟩ = .instr (.ifne 0#4 1#4) := by decide

/-- V-L1-3 -/
theorem test_decode_iflt : decode ⟨0x0B#8, 0x00#8, 0x02#8, 0x01#8⟩ = .instr (.iflt 0#4 1#4) := by decide

/-- V-C-8 -/
theorem test_decode_ifle : decode ⟨0x0B#8, 0x00#8, 0x03#8, 0x01#8⟩ = .instr (.ifle 0#4 1#4) := by decide

/-- V-C-10 -/
theorem test_decode_ifgt : decode ⟨0x0B#8, 0x00#8, 0x04#8, 0x01#8⟩ = .instr (.ifgt 0#4 1#4) := by decide

/-- V-D-18 -/
theorem test_decode_ifge : decode ⟨0x0B#8, 0x00#8, 0x05#8, 0x01#8⟩ = .instr (.ifge 0#4 1#4) := by decide

/-- V-D-20 -/
theorem test_decode_ifeqi : decode ⟨0x0C#8, 0x00#8, 0x0F#8, 0x0F#8⟩ = .instr (.ifeqi 0#4 255#8) := by decide

/-- V-C-16 -/
theorem test_decode_ifnei : decode ⟨0x0D#8, 0x00#8, 0x00#8, 0x00#8⟩ = .instr (.ifnei 0#4 0#8) := by decide

/-- V-D-21 -/
theorem test_decode_key : decode ⟨0x0E#8, 0x04#8, 0x00#8, 0x00#8⟩ = .instr (.key 4#4) := by decide

/-! Illegal patterns. -/

/-- V-D-2 -/
theorem test_illegal_halt_unused_byte : decode ⟨0x00#8, 0x00#8, 0x00#8, 0x01#8⟩ = .illegal .operand := by decide

/-- V-D-5 -/
theorem test_illegal_filler_bit : decode ⟨0x01#8, 0x10#8, 0x00#8, 0x00#8⟩ = .illegal .operand := by decide

/-- V-D-7 -/
theorem test_illegal_register_12 : decode ⟨0x02#8, 0x0C#8, 0x00#8, 0x00#8⟩ = .illegal .operand := by decide

/-- V-D-8 -/
theorem test_illegal_print_unused_byte : decode ⟨0x02#8, 0x00#8, 0x01#8, 0x00#8⟩ = .illegal .operand := by decide

/-- V-D-9 -/
theorem test_illegal_clear_unused_byte : decode ⟨0x03#8, 0x01#8, 0x00#8, 0x00#8⟩ = .illegal .operand := by decide

/-- V-D-13 -/
theorem test_illegal_operation_9 : decode ⟨0x07#8, 0x00#8, 0x09#8, 0x01#8⟩ = .illegal .operand := by decide

/-- V-D-15 -/
theorem test_illegal_second_register_15 : decode ⟨0x07#8, 0x00#8, 0x00#8, 0x0F#8⟩ = .illegal .operand := by decide

/-- V-D-16 -/
theorem test_illegal_filler_bit_in_b2 : decode ⟨0x08#8, 0x00#8, 0x10#8, 0x00#8⟩ = .illegal .operand := by decide

/-- V-D-19 -/
theorem test_illegal_comparison_6 : decode ⟨0x0B#8, 0x00#8, 0x06#8, 0x01#8⟩ = .illegal .operand := by decide

/-- V-D-22 -/
theorem test_illegal_key_5 : decode ⟨0x0E#8, 0x05#8, 0x00#8, 0x00#8⟩ = .illegal .operand := by decide

/-- V-D-23 -/
theorem test_illegal_key_unused_byte : decode ⟨0x0E#8, 0x00#8, 0x00#8, 0x01#8⟩ = .illegal .operand := by decide

/-- V-D-25 -/
theorem test_illegal_opcode_before_operand : decode ⟨0x0F#8, 0x10#8, 0x00#8, 0x00#8⟩ = .illegal .opcode := by decide

/-- V-D-26 -/
theorem test_illegal_all_ones : decode ⟨0xFF#8, 0xFF#8, 0xFF#8, 0xFF#8⟩ = .illegal .opcode := by decide

/-- The numbering of spec/opcode_table.json: `b0` is the most significant byte of the slot word (R7). -/
theorem test_table_word : decodeTableWord 32 0x07000801 = some (.xor 0#4 1#4) ∧
    decodeTableWord 32 0x0E040000 = some (.key 4#4) ∧ decodeTableWord 32 0x0F000000 = none := by decide

/-! The meanings, one step each. -/

/-- V-F-1, V-F-2: HALT counts itself in `IC`; with `TICK_REG = some 0`, 255 wraps to 0. -/
theorem test_halt :
    status (step (runAt 0 0#8 0#8 ⟨0#8, 0#8, 0#8, 0#8⟩)) = some (.idle, 4, 1) := by decide

/-- V-F-2 -/
theorem test_halt_counts_ticks :
    (after (exec .halt { xy 255#8 0#8 with cfg := { Config.reference with tickReg := some 0 } })).readReg 0 = 0#8 := by decide

/-- R97, example -/
theorem test_jmp :
    (after (exec (.jmp 4#12) (runAt 16 0#8 0#8 ⟨1#8, 0#8, 0#8, 4#8⟩))).pc = 4 := by decide

/-- V-F-5: the bad target faults at the next fetch. -/
theorem test_jmp_misaligned :
    status (step (runAt 4095 0#8 0#8 ⟨0#8, 0#8, 0#8, 0#8⟩)) = some (.faulted, 4095, 0) := by decide

/-- V-H-1 -/
theorem test_print :
    seen (exec (.print 0#4) (xy 255#8 0#8)) 0 = some (255#8, 12, [.print 255#8]) := by decide

/-- V-H-3 -/
theorem test_clear :
    seen (exec (.clear 15#8) (xy 0#8 0#8)) 11 = some (0#8, 12, [.clear 15#8]) := by decide

/-- V-H-4 -/
theorem test_clear_faults :
    seen (exec (.clear 16#8) (xy 0#8 0#8)) 11 = some (0#8, 8, [.fault .paletteRange 8]) := by decide

/-- V-H-5 -/
theorem test_color :
    seen (exec (.color 3#8) (xy 0#8 0#8)) 11 = some (3#8, 12, [.setColor 3#8]) := by decide

/-- V-H-7 -/
theorem test_color_faults :
    seen (exec (.color 16#8) (xy 0#8 0#8)) 11 = some (0#8, 8, [.fault .paletteRange 8]) := by decide

/-- V-H-11: 0xFFC is the last legal address. -/
theorem test_spra :
    (after (exec (.spra 4092#12) { xy 250#8 250#8 with mem := placeSlot [] 4092 ⟨0x81#8, 0x42#8, 0x24#8, 0x18#8⟩ })).events =
      [.sprite 250#8 250#8 0#8 ⟨0x81#8, 0x42#8, 0x24#8, 0x18#8⟩] := by decide

/-- V-H-12 -/
theorem test_spra_faults :
    (after (exec (.spra 4093#12) (xy 0#8 0#8))).events = [.fault .spriteRange 8] := by decide

/-- V-H-10, with the default map -/
theorem test_spri :
    (after (exec (.spri 24#12) { xy 2#8 5#8 with mem := placeSlot [] 24 ⟨0x18#8, 0x3C#8, 0x3C#8, 0x18#8⟩ })).events =
      [.sprite 2#8 5#8 0#8 ⟨0x18#8, 0x3C#8, 0x3C#8, 0x18#8⟩] := by decide

/-- R114: the range check is on the mapped address. -/
theorem test_spri_mapped :
    (after (exec (.spri 24#12) { xy 0#8 0#8 with cfg := { Config.reference with spriteImm := [(24#12, 4093#12)] } })).events =
      [.fault .spriteRange 8] := by decide

/-- V-A-1 -/
theorem test_set :
    seen (exec (.set 0#4 1#4) (xy 0#8 20#8)) 0 = some (20#8, 12, []) := by decide

/-- V-A-34: no event. -/
theorem test_set_draw_color :
    seen (exec (.set 11#4 0#4) (xy 4#8 0#8)) 11 = some (4#8, 12, []) := by decide

/-- V-A-3 -/
theorem test_add :
    seen (exec (.add 0#4 1#4) (xy 250#8 10#8)) 0 = some (4#8, 12, []) := by decide

/-- V-A-5 -/
theorem test_add_self :
    seen (exec (.add 0#4 0#4) (xy 128#8 0#8)) 0 = some (0#8, 12, []) := by decide

/-- V-A-6 -/
theorem test_sub :
    seen (exec (.sub 0#4 1#4) (xy 3#8 5#8)) 0 = some (254#8, 12, []) := by decide

/-- V-A-8 -/
theorem test_sub_self :
    seen (exec (.sub 0#4 0#4) (xy 77#8 0#8)) 0 = some (0#8, 12, []) := by decide

/-- V-A-9 -/
theorem test_mul :
    seen (exec (.mul 0#4 1#4) (xy 200#8 2#8)) 0 = some (144#8, 12, []) := by decide

/-- V-A-11 -/
theorem test_mul_wraps :
    seen (exec (.mul 0#4 1#4) (xy 255#8 255#8)) 0 = some (1#8, 12, []) := by decide

/-- V-A-12 -/
theorem test_div :
    seen (exec (.div 0#4 1#4) (xy 7#8 2#8)) 0 = some (3#8, 12, []) := by decide

/-- V-A-16 -/
theorem test_div_self_zero :
    seen (exec (.div 0#4 0#4) (xy 0#8 9#8)) 0 = some (0#8, 8, [.fault .divZero 8]) := by decide

/-- V-A-18 -/
theorem test_mod :
    seen (exec (.mod 0#4 1#4) (xy 7#8 2#8)) 0 = some (1#8, 12, []) := by decide

/-- V-A-20 -/
theorem test_mod_zero :
    seen (exec (.mod 0#4 1#4) (xy 7#8 0#8)) 0 = some (7#8, 8, [.fault .divZero 8]) := by decide

/-- V-A-21 -/
theorem test_and :
    seen (exec (.and 0#4 1#4) (xy 240#8 60#8)) 0 = some (48#8, 12, []) := by decide

/-- V-A-22 -/
theorem test_or :
    seen (exec (.or 0#4 1#4) (xy 240#8 60#8)) 0 = some (252#8, 12, []) := by decide

/-- V-A-23 -/
theorem test_xor :
    seen (exec (.xor 0#4 1#4) (xy 240#8 60#8)) 0 = some (204#8, 12, []) := by decide

/-- V-A-24 -/
theorem test_xor_self :
    seen (exec (.xor 0#4 0#4) (xy 90#8 0#8)) 0 = some (0#8, 12, []) := by decide

/-- V-A-26 -/
theorem test_seti :
    seen (exec (.seti 0#4 255#8) (xy 1#8 0#8)) 0 = some (255#8, 12, []) := by decide

/-- V-A-27 -/
theorem test_addi :
    seen (exec (.addi 0#4 10#8) (xy 250#8 0#8)) 0 = some (4#8, 12, []) := by decide

/-- V-A-28 -/
theorem test_addi_minus_one :
    seen (exec (.addi 0#4 255#8) (xy 0#8 0#8)) 0 = some (255#8, 12, []) := by decide

/-- V-A-30 -/
theorem test_rand_zero :
    seen (exec (.rand 0#4 0#8) (xy 7#8 0#8)) 0 = some (7#8, 8, [.fault .randZero 8]) := by decide

/-- V-A-32: the host returns 254. -/
theorem test_rand :
    seen (exec (.rand 0#4 255#8) { xy 7#8 0#8 with host := ⟨[], [], [254#8], 0⟩ }) 0 =
      some (254#8, 12, [.random 255#8 254#8]) := by decide

/-- V-C-1 -/
theorem test_ifeq_true :
    (after (exec (.ifeq 0#4 1#4) (xy 7#8 7#8))).pc = 12 := by decide

/-- V-C-2 -/
theorem test_ifeq_false :
    (after (exec (.ifeq 0#4 1#4) (xy 7#8 8#8))).pc = 16 := by decide

/-- V-C-3 -/
theorem test_ifne_true :
    (after (exec (.ifne 0#4 1#4) (xy 7#8 8#8))).pc = 12 := by decide

/-- V-C-4 -/
theorem test_ifne_self :
    (after (exec (.ifne 0#4 0#4) (xy 5#8 0#8))).pc = 16 := by decide

/-- V-C-7 -/
theorem test_iflt_true :
    (after (exec (.iflt 0#4 1#4) (xy 1#8 255#8))).pc = 12 := by decide

/-- V-C-6: unsigned. -/
theorem test_iflt_false :
    (after (exec (.iflt 0#4 1#4) (xy 255#8 1#8))).pc = 16 := by decide

/-- V-C-9 -/
theorem test_ifle_true :
    (after (exec (.ifle 0#4 1#4) (xy 0#8 0#8))).pc = 12 := by decide

/-- V-C-8 -/
theorem test_ifle_false :
    (after (exec (.ifle 0#4 1#4) (xy 20#8 10#8))).pc = 16 := by decide

/-- V-C-10 -/
theorem test_ifgt_true :
    (after (exec (.ifgt 0#4 1#4) (xy 200#8 100#8))).pc = 12 := by decide

/-- V-C-11 -/
theorem test_ifgt_self :
    (after (exec (.ifgt 0#4 0#4) (xy 9#8 0#8))).pc = 16 := by decide

/-- V-C-13 -/
theorem test_ifge_true :
    (after (exec (.ifge 0#4 1#4) (xy 4#8 4#8))).pc = 12 := by decide

/-- V-C-12 -/
theorem test_ifge_false :
    (after (exec (.ifge 0#4 1#4) (xy 3#8 4#8))).pc = 16 := by decide

/-- V-C-15 -/
theorem test_ifeqi_true :
    (after (exec (.ifeqi 0#4 255#8) (xy 255#8 0#8))).pc = 12 := by decide

/-- R158 by hand -/
theorem test_ifeqi_false :
    (after (exec (.ifeqi 0#4 0#8) (xy 1#8 0#8))).pc = 16 := by decide

/-- V-C-17 -/
theorem test_ifnei_true :
    (after (exec (.ifnei 0#4 0#8) (xy 3#8 0#8))).pc = 12 := by decide

/-- V-C-16 -/
theorem test_ifnei_false :
    (after (exec (.ifnei 0#4 0#8) (xy 0#8 0#8))).pc = 16 := by decide

/-- V-C-18: the host says the up key is down. -/
theorem test_key_down :
    seen (exec (.key 1#4) { xy 0#8 0#8 with host := ⟨[], [true], [], 0⟩ }) 0 = some (0#8, 12, [.key .up true]) := by decide

/-- V-C-19: the host says it is up. -/
theorem test_key_up :
    seen (exec (.key 1#4) { xy 0#8 0#8 with host := ⟨[], [false], [], 0⟩ }) 0 = some (0#8, 16, [.key .up false]) := by decide

/-! The step, the run and the reset. -/

/-- V-X-1: the watchdog comes before decode. -/
theorem test_watchdog_first :
    (after (step { runAt 0 0#8 0#8 ⟨0xFF#8, 0xFF#8, 0xFF#8, 0xFF#8⟩ with cfg := { Config.reference with watchdogLimit := some 0 } })).events =
      [.fault .watchdog 0] := by decide

/-- V-X-2: alignment comes before decode. -/
theorem test_alignment_first :
    (after (step { runAt 0 0#8 0#8 ⟨0xFF#8, 0xFF#8, 0xFF#8, 0xFF#8⟩ with pc := 6 })).events = [.fault .pcMisaligned 6] := by decide

/-- V-F-7: the fetch at 4096. -/
theorem test_range_fault :
    (after (step { runAt 0 0#8 0#8 ⟨0#8, 0#8, 0#8, 0#8⟩ with pc := 4096 })).fr = some ⟨.pcRange, 4096⟩ := by decide

/-- V-X-3: an illegal operand is found before the zero divisor. -/
theorem test_operand_before_divisor :
    (after (step (runAt 0 7#8 0#8 ⟨7#8, 0#8, 4#8, 12#8⟩))).events = [.fault .illegalOperand 0] := by decide

/-- V-X-4 -/
theorem test_opcode_fault :
    (after (step (runAt 0 0#8 0#8 ⟨0x0F#8, 0x10#8, 0#8, 0#8⟩))).fr = some ⟨.illegalOpcode, 0⟩ := by decide

/-- V-F-11: a run starts with pc and `IC` 0 and the registers kept. -/
theorem test_tick :
    (after (step { xy 9#8 3#8 with rs := .idle, ic := 5, host := ⟨[true], [], [], 0⟩ })).regs = (xy 9#8 3#8).regs ∧
      status (step { xy 9#8 3#8 with rs := .idle, ic := 5, host := ⟨[true], [], [], 0⟩ }) = some (.running, 0, 0) := by decide

/-- V-X-5: a tick in FAULTED starts no run and makes no event. -/
theorem test_tick_faulted :
    status (step { xy 9#8 3#8 with rs := .faulted, host := ⟨[true], [], [], 0⟩ }) = some (.faulted, 8, 0) ∧
      (after (step { xy 9#8 3#8 with rs := .faulted, host := ⟨[true], [], [], 0⟩ })).events = [] := by decide

/-- V-X-6 -/
theorem test_power_on_reset :
    ((xy 9#8 3#8).raise .divZero).powerOnReset.regs = Vector.replicate numRegs 0#8 ∧
      ((xy 9#8 3#8).raise .divZero).powerOnReset.rs = .idle ∧ ((xy 9#8 3#8).raise .divZero).powerOnReset.fr = none := by decide

/-- V-R-1 -/
theorem test_reset :
    State.reset.regs = Vector.replicate numRegs 0#8 ∧ State.reset.pc = 0 ∧ State.reset.rs = .idle ∧
      State.reset.fr = none ∧ State.reset.ic = 0 ∧ State.reset.mem.wf = true := by decide

/-- The codes of R170. -/
theorem test_fault_codes :
    [FaultCause.pcRange.code, FaultCause.pcMisaligned.code, FaultCause.illegalOpcode.code,
      FaultCause.illegalOperand.code, FaultCause.divZero.code, FaultCause.randZero.code,
      FaultCause.paletteRange.code, FaultCause.spriteRange.code, FaultCause.watchdog.code] = [1, 2, 3, 4, 5, 6, 7, 8, 9] := by decide

/-- R42, R205: an image is placed slot by slot from 0, and zero bytes are not listed. -/
theorem test_place_image :
    placeImage [] 0 [⟨1#8, 0#8, 0#8, 8#8⟩, ⟨2#8, 0#8, 0#8, 0#8⟩] = [(0, 1#8), (3, 8#8), (4, 2#8)] := by decide

/-- `withFetchWord` runs the word first after reset: SETI y, 20 of R140. -/
theorem test_with_fetch_word :
    seen (step (State.reset.withFetchWord 32 0x08010104)) 1 = some (20#8, 4, []) := by decide

/-! Witnesses: for every obligation with hypotheses, a concrete state and operands that meet all of
them together, and for each clause one at a boundary of its range. -/

/-- A run at `a` whose slot there is `b`. -/
def at0 (a : Nat) (b : Bytes4) : State := runAt a 0#8 0#8 b

def haltSlot : Bytes4 := ⟨0#8, 0#8, 0#8, 0#8⟩

/-- IFNEI x, 0, which skips while `x` is 0. -/
def ifneiSlot : Bytes4 := ⟨0x0D#8, 0#8, 0#8, 0#8⟩

def withWatchdog (s : State) (limit : Nat) : State :=
  { s with cfg := { s.cfg with watchdogLimit := some limit } }

/-- What `CanFetch` asks of a state without a watchdog, and the decoding of its slot. -/
theorem executes_of {s : State} {i : Instr} (hr : s.rs = .running) (hw : s.watchdogExpired = false)
    (ha : s.pc % 4 = 0) (hp : s.pc + 4 ≤ 4096) (hd : decode (s.slotAt s.pc) = .instr i) : s.Executes i :=
  ⟨(canFetch_iff s).mpr ⟨hr, hw, ha, hp⟩, hd⟩

theorem halt_executes : (at0 4092 haltSlot).Executes .halt :=
  executes_of rfl rfl (by decide) (by decide) (by decide)

theorem jmp_executes : (at0 0 ⟨1#8, 0#8, 0#8, 0#8⟩).Executes (.jmp 0#12) :=
  executes_of rfl rfl (by decide) (by decide) (by decide)

theorem div_executes : (at0 8 ⟨7#8, 0#8, 4#8, 1#8⟩).Executes (.div 0#4 1#4) :=
  executes_of rfl rfl (by decide) (by decide) (by decide)

theorem ifnei_executes_4092 : (at0 4092 ifneiSlot).Executes (.ifnei 0#4 0#8) :=
  executes_of rfl rfl (by decide) (by decide) (by decide)

theorem ifnei_executes_4088 : (at0 4088 ifneiSlot).Executes (.ifnei 0#4 0#8) :=
  executes_of rfl rfl (by decide) (by decide) (by decide)

theorem seti_executes : (at0 0 ⟨8#8, 0#8, 0#8, 7#8⟩).Executes (.seti 0#4 7#8) :=
  executes_of rfl rfl (by decide) (by decide) (by decide)

theorem witness_DecodeAndEncodeAreInverse :
    (Instr.set 11#4 11#4).wellFormed = true ∧
      decode ⟨0x01#8, 0x0F#8, 0x0F#8, 0x0F#8⟩ = .instr (.jmp 4095#12) := by decide

theorem witness_IllegalPatternsAreTheListedOnes :
    ((at0 0 ⟨0x0F#8, 0#8, 0#8, 0#8⟩).CanFetch ∧
      (at0 0 ⟨0x0F#8, 0#8, 0#8, 0#8⟩).slotAt 0 = ⟨0x0F#8, 0#8, 0#8, 0#8⟩ ∧
      decode ⟨0x0F#8, 0#8, 0#8, 0#8⟩ = .illegal .opcode) ∧
    ((at0 4092 ⟨0x0E#8, 5#8, 0#8, 0#8⟩).CanFetch ∧
      (at0 4092 ⟨0x0E#8, 5#8, 0#8, 0#8⟩).slotAt 4092 = ⟨0x0E#8, 5#8, 0#8, 0#8⟩ ∧
      decode ⟨0x0E#8, 5#8, 0#8, 0#8⟩ = .illegal .operand) :=
  ⟨⟨(canFetch_iff _).mpr (by decide), by decide, by decide⟩,
    ⟨(canFetch_iff _).mpr (by decide), by decide, by decide⟩⟩

theorem witness_StepRunsTheDecodedInstruction : ∃ s i, State.Executes s i := ⟨_, _, halt_executes⟩

theorem noWatchdog {s : State} (h : s.cfg.watchdogLimit = none) :
    ∀ limit, s.cfg.watchdogLimit = some limit → s.ic < limit := fun _ e => nomatch h.symm.trans e

/-- The clauses of the checks: the limit just reached; a pc one past alignment; 4096; 0x0F; an id of 12. -/
theorem witness_ChecksBeforeExecutionInOrder :
    (∃ s : State, s.rs = .running ∧ s.cfg.watchdogLimit = some 0 ∧ 0 ≤ s.ic) ∧
    (∃ s : State, s.rs = .running ∧ (∀ limit, s.cfg.watchdogLimit = some limit → s.ic < limit) ∧ s.pc % 4 ≠ 0) ∧
    (∃ s : State, s.rs = .running ∧ (∀ limit, s.cfg.watchdogLimit = some limit → s.ic < limit) ∧
      s.pc % 4 = 0 ∧ 4096 < s.pc + 4) ∧
    (∃ s : State, s.rs = .running ∧ (∀ limit, s.cfg.watchdogLimit = some limit → s.ic < limit) ∧
      s.pc % 4 = 0 ∧ s.pc + 4 ≤ 4096 ∧ 0x0F ≤ (readByte s.mem s.pc).toNat) ∧
    (∃ s : State, s.rs = .running ∧ (∀ limit, s.cfg.watchdogLimit = some limit → s.ic < limit) ∧
      s.pc % 4 = 0 ∧ s.pc + 4 ≤ 4096 ∧ decode (s.slotAt s.pc) = .illegal .operand) :=
  ⟨⟨withWatchdog (at0 0 haltSlot) 0, by decide⟩, ⟨at0 4093 haltSlot, rfl, noWatchdog rfl, by decide⟩,
    ⟨at0 4096 haltSlot, rfl, noWatchdog rfl, by decide⟩,
    ⟨at0 4092 ⟨0x0F#8, 0#8, 0#8, 0#8⟩, rfl, noWatchdog rfl, by decide⟩,
    ⟨at0 4092 ⟨2#8, 12#8, 0#8, 0#8⟩, rfl, noWatchdog rfl, by decide⟩⟩

theorem witness_TickStartsARunOnlyFromIdle :
    ({ State.reset with host := ⟨[true], [], [], 0⟩ }.rs = .idle ∧
      { State.reset with host := ⟨[true], [], [], 0⟩ }.host.ticks = true :: []) ∧
    ({ State.reset with host := ⟨[false], [], [], 0⟩ }.rs = .idle ∧
      { State.reset with host := ⟨[false], [], [], 0⟩ }.host.ticks = false :: []) ∧
    (State.reset.raise .divZero).rs = .faulted ∧
    ∃ t, (at0 0 haltSlot).rs = .running ∧ step (at0 0 haltSlot) = .next t :=
  ⟨by decide, by decide, rfl, after (step (at0 0 haltSlot)), rfl, rfl⟩

theorem witness_FaultedIsPermanentUntilPowerOnReset : (State.reset.raise .divZero).rs = .faulted := rfl

theorem witness_FaultsArePrecise :
    ∃ s t : State, s.rs = .running ∧ step s = .next t ∧ t.rs = .faulted :=
  ⟨at0 4096 haltSlot, after (step (at0 4096 haltSlot)), rfl, rfl, by decide⟩

theorem witness_RegistersChangeOnlyByTheirWriters :
    ∃ (s t : State) (q : RegId), step s = .next t ∧ t.regs[q] ≠ s.regs[q] :=
  ⟨at0 0 ⟨8#8, 0#8, 0#8, 7#8⟩, after (step (at0 0 ⟨8#8, 0#8, 0#8, 7#8⟩)), 0, rfl, by decide⟩

theorem witness_TheImageNeverChanges :
    (at0 0 haltSlot).Reaches 1 (after (step (at0 0 haltSlot))) :=
  reaches_succ.mpr ⟨_, rfl, reaches_zero.mpr rfl⟩

theorem witness_AtMostOneRequestPerStep :
    ∃ s t : State, step s = .next t ∧ t.events ≠ s.events :=
  ⟨at0 0 ⟨2#8, 0#8, 0#8, 0#8⟩, after (step (at0 0 ⟨2#8, 0#8, 0#8, 0#8⟩)), rfl, by decide⟩

theorem witness_ARunEndsOnlyByHaltOrFault :
    (∃ s t : State, s.rs = .running ∧ step s = .next t ∧ t.rs = .idle) ∧
    (∃ s t : State, s.rs = .running ∧ step s = .next t ∧ t.rs = .faulted) :=
  ⟨⟨at0 4092 haltSlot, after (step (at0 4092 haltSlot)), rfl, rfl, by decide⟩,
    ⟨at0 4096 haltSlot, after (step (at0 4096 haltSlot)), rfl, rfl, by decide⟩⟩

theorem witness_CompletedInstructionsAreCounted :
    (∃ s t : State, s.rs = .running ∧ step s = .next t ∧ t.rs ≠ .faulted) ∧
    (∃ s t : State, s.rs = .running ∧ step s = .next t ∧ t.rs = .faulted) :=
  ⟨⟨at0 4092 haltSlot, after (step (at0 4092 haltSlot)), rfl, rfl, by decide⟩,
    ⟨at0 4096 haltSlot, after (step (at0 4096 haltSlot)), rfl, rfl, by decide⟩⟩

theorem witness_TheWatchdogEndsEveryRun :
    (withWatchdog (at0 0 haltSlot) 0).rs = .running ∧
      (withWatchdog (at0 0 haltSlot) 0).cfg.watchdogLimit = some 0 ∧
      (withWatchdog (at0 0 haltSlot) 5).cfg.watchdogLimit = some 5 := by decide

theorem witness_AJumpToItselfNeverEnds :
    (at0 0 ⟨1#8, 0#8, 0#8, 0#8⟩).Executes (.jmp 0#12) ∧
      (0#12 : Addr12).toNat = (at0 0 ⟨1#8, 0#8, 0#8, 0#8⟩).pc ∧
      (at0 0 ⟨1#8, 0#8, 0#8, 0#8⟩).cfg.watchdogLimit = none :=
  ⟨jmp_executes, rfl, rfl⟩

/-- At the upper bound of the pc. -/
theorem witness_EveryStepKeepsTheCoreConsistent :
    { State.reset with pc := 4100, rs := .running }.Consistent ∧
      ∃ t, step { State.reset with pc := 4100, rs := .running } = .next t :=
  ⟨⟨rfl, by decide, fun _ => rfl, (fun h => nomatch h), (fun _ h => nomatch h), ⟨by decide, by decide⟩⟩,
    after (step { State.reset with pc := 4100, rs := .running }), rfl⟩

theorem witness_PowerOnIsConsistent :
    { Config.reference with paletteSize := 1 }.paletteOk ∧
      { Config.reference with paletteSize := 256 }.paletteOk := by decide

theorem witness_ThePcMovesByTheRules :
    (∃ s t i, State.Executes s i ∧ step s = .next t ∧ t.rs = .faulted) ∧
    (∃ s t i, State.Executes s i ∧ step s = .next t ∧ t.rs ≠ .faulted) :=
  ⟨⟨_, after (step (at0 8 ⟨7#8, 0#8, 4#8, 1#8⟩)), _, div_executes, rfl, by decide⟩,
    ⟨_, after (step (at0 4092 ifneiSlot)), _, ifnei_executes_4092, rfl, by decide⟩⟩

theorem witness_HostAnswersArriveOnlyByQueries :
    (at0 4092 haltSlot).rs = .running ∧
      (at0 4092 haltSlot).SameCore { at0 4092 haltSlot with host := ⟨[true], [false], [3#8], 7⟩ } ∧
      (∀ k, ¬ (at0 4092 haltSlot).Executes (.key k)) ∧ (∀ r n, ¬ (at0 4092 haltSlot).Executes (.rand r n)) ∧
      step (at0 4092 haltSlot) = .next (after (step (at0 4092 haltSlot))) :=
  ⟨rfl, rfl, (fun _ h => nomatch halt_executes.2.symm.trans h.2),
    (fun _ _ h => nomatch halt_executes.2.symm.trans h.2), rfl⟩

theorem witness_AStepReadsOnlyItsSlot :
    (at0 4092 ifneiSlot).Executes (.ifnei 0#4 0#8) ∧
      (∀ d, d < 4 → readByte (writeByte (at0 4092 ifneiSlot).mem 4091 9#8) ((at0 4092 ifneiSlot).pc + d) =
        readByte (at0 4092 ifneiSlot).mem ((at0 4092 ifneiSlot).pc + d)) ∧
      step (at0 4092 ifneiSlot) = .next (after (step (at0 4092 ifneiSlot))) :=
  ⟨ifnei_executes_4092, by decide, rfl⟩

theorem witness_ASkipPastMemoryFaultsAtTheNextFetch :
    ((at0 4092 ifneiSlot).Executes (.ifnei 0#4 0#8) ∧ (at0 4092 ifneiSlot).cfg.watchdogLimit = none ∧
      step (at0 4092 ifneiSlot) = .next (after (step (at0 4092 ifneiSlot))) ∧
      (after (step (at0 4092 ifneiSlot))).pc = 4100) ∧
    ((at0 4088 ifneiSlot).Executes (.ifnei 0#4 0#8) ∧ (at0 4088 ifneiSlot).cfg.watchdogLimit = none ∧
      step (at0 4088 ifneiSlot) = .next (after (step (at0 4088 ifneiSlot))) ∧
      (after (step (at0 4088 ifneiSlot))).pc = 4096) :=
  ⟨⟨ifnei_executes_4092, rfl, rfl, by decide⟩, ⟨ifnei_executes_4088, rfl, rfl, by decide⟩⟩

/-- The slots IFEQI x, 1 and IFEQI y, 1 of program P6 at the last place they fit, the first false; and
the same with `x = 1`, the first true. -/
theorem witness_AGuardOfAGuardIsNoConjunction :
    let m := placeSlot (placeSlot [] 4088 ⟨0x0C#8, 0#8, 0#8, 1#8⟩) 4092 ⟨0x0C#8, 1#8, 0#8, 1#8⟩
    let s : State := { at0 4088 haltSlot with mem := m }
    let s' : State := { s with regs := s.regs.set 0 1#8 }
    (s.rs = .running ∧ s.cfg.watchdogLimit = none ∧ s.pc % 4 = 0 ∧ s.pc + 8 ≤ 4096 ∧
      decode (s.slotAt s.pc) = .instr (.ifeqi (regField 0) 1#8) ∧
      decode (s.slotAt (s.pc + 4)) = .instr (.ifeqi (regField 1) 1#8) ∧ s.regs[(0 : RegId)] ≠ 1#8) ∧
    (s'.rs = .running ∧ s'.cfg.watchdogLimit = none ∧ s'.pc % 4 = 0 ∧ s'.pc + 8 ≤ 4096 ∧
      decode (s'.slotAt s'.pc) = .instr (.ifeqi (regField 0) 1#8) ∧
      decode (s'.slotAt (s'.pc + 4)) = .instr (.ifeqi (regField 1) 1#8) ∧ s'.regs[(0 : RegId)] = 1#8) := by
  decide

theorem witness_RegistersPersistAcrossRuns :
    ∃ s t u : State, s.Executes .halt ∧ s.cfg.tickReg = none ∧ step s = .next t ∧ step t = .next u ∧
      u.rs = .running := by
  refine ⟨{ at0 4092 haltSlot with host := ⟨[true], [], [], 0⟩ }, after (step { at0 4092 haltSlot with host := ⟨[true], [], [], 0⟩ }),
    after (step (after (step { at0 4092 haltSlot with host := ⟨[true], [], [], 0⟩ }))), ?_, rfl, rfl, rfl, by decide⟩
  exact executes_of rfl rfl (by decide) (by decide) (by decide)

theorem witness_APlacedWordIsExecutedNext :
    State.reset.mem.wf = true ∧ State.reset.cfg.watchdogLimit ≠ some 0 ∧
      decodeTableWord 32 0x08010104 = some (.seti 1#4 20#8) := by decide

theorem witness_AnIllFormedTermFaults :
    (Instr.print 12#4).wellFormed = false ∧ (Instr.key 5#4).wellFormed = false := by decide

theorem witness_HaltEndsTheRun :
    State.reset.cfg.tickReg = none ∧
      { Config.reference with tickReg := some 11 }.tickReg = some 11 := by decide

/-- The next fetch after `JMP 0xFFF` and after `JMP 0xFFC`. -/
theorem witness_JmpSetsThePc :
    ((at0 4095 haltSlot).rs = .running ∧
      (∀ limit, (at0 4095 haltSlot).cfg.watchdogLimit = some limit → (at0 4095 haltSlot).ic < limit) ∧
      (at0 4095 haltSlot).pc = (4095#12 : Addr12).toNat ∧ (4095#12 : Addr12).toNat % 4 ≠ 0) ∧
    ((at0 4092 haltSlot).rs = .running ∧
      (∀ limit, (at0 4092 haltSlot).cfg.watchdogLimit = some limit → (at0 4092 haltSlot).ic < limit) ∧
      (at0 4092 haltSlot).pc = (4092#12 : Addr12).toNat ∧
      step (at0 4092 haltSlot) = .next (after (step (at0 4092 haltSlot)))) :=
  ⟨⟨rfl, noWatchdog rfl, rfl, by decide⟩, ⟨rfl, noWatchdog rfl, rfl, rfl⟩⟩

theorem witness_ColorSetsTheDrawColor :
    (15#8 : Byte).toNat < State.reset.cfg.paletteSize ∧ State.reset.cfg.paletteSize ≤ (16#8 : Byte).toNat := by
  decide

theorem witness_ClearEmitsThePaletteIndex :
    (0#8 : Byte).toNat < (State.powerOn { Config.reference with paletteSize := 1 }).cfg.paletteSize ∧
      (State.powerOn { Config.reference with paletteSize := 1 }).cfg.paletteSize ≤ (1#8 : Byte).toNat := by decide

theorem witness_SpraDrawsTheBytesAtItsAddress :
    (4092#12 : Addr12).toNat ≤ 4092 ∧ 4092 < (4093#12 : Addr12).toNat := by decide

theorem witness_SpriDrawsTheBytesItsIdMapsTo :
    (spriteImmMap State.reset.cfg.spriteImm 4092#12).toNat ≤ 4092 ∧
      4092 < (spriteImmMap State.reset.cfg.spriteImm 4093#12).toNat ∧ State.reset.cfg.spriteImm = [] := by decide

theorem witness_DivWritesTheQuotient :
    (xy 255#8 1#8).regs[(1 : RegId)] ≠ 0 ∧ (xy 255#8 0#8).regs[(1 : RegId)] = 0 := by decide

theorem witness_ModWritesTheRemainder :
    (xy 7#8 255#8).regs[(1 : RegId)] ≠ 0 ∧ (xy 0#8 255#8).regs[(0 : RegId)] = 0 := by decide

theorem witness_RandDrawsBelowItsBound :
    (1#8 : Byte) ≠ 0 ∧ { State.reset with host := ⟨[], [], [0#8], 0⟩ }.host.randoms = 0#8 :: [] ∧
      (0#8 : Byte).toNat < (1#8 : Byte).toNat ∧ (0#8 : Byte) = 0 := by decide

theorem witness_KeySkipsUnlessTheKeyIsDown :
    { State.reset with host := ⟨[], [true], [], 0⟩ }.host.keys = true :: [] := by decide

theorem witness_QuotientAndRemainderRecompose :
    ∃ t u, (xy 7#8 2#8).regs[(1 : RegId)] ≠ 0 ∧
      exec (.div (regField 0) (regField 1)) (xy 7#8 2#8) = .next t ∧
      exec (.mod (regField 0) (regField 1)) (xy 7#8 2#8) = .next u :=
  ⟨after (exec (.div (regField 0) (regField 1)) (xy 7#8 2#8)),
    after (exec (.mod (regField 0) (regField 1)) (xy 7#8 2#8)), by decide, rfl, rfl⟩

end Sys2Proof.Tests
end

section
/-! PROOFS. What one instruction's rule and one step of the machine can do, said once (R93, R23, R41,
R94), and what no number of steps changes. -/

namespace Sys2Proof.Machine

/-- What the rule of `i` leaves of `s` where it completes without a fault: everything it may not touch. -/
structure State.Completes (s : State) (i : Instr) (t : State) : Prop where
  /-- no instruction writes memory (R41) -/
  mem : t.mem = s.mem := by rfl
  /-- no instruction writes a parameter (assumption 1) -/
  cfg : t.cfg = s.cfg := by rfl
  /-- only fault entry writes `FR` (R29) -/
  fr : t.fr = s.fr := by rfl
  /-- the rule itself leaves `IC` to the end of the step (R93) -/
  ic : t.ic = s.ic := by rfl
  /-- only HALT ends the run (R95) -/
  rs : i ≠ .halt → t.rs = s.rs
  /-- HALT ends it, with Done as its request (R96) -/
  halted : i = .halt → t.rs = .idle ∧ t.events = s.events ++ [.done]
  /-- at most one request is made (R186 item 1) -/
  events : t.events = s.events ∨ ∃ e, t.events = s.events ++ [e]
  /-- the next slot, the one after it, or a jump target (R94, R97, R150) -/
  pc : t.pc = s.pc + 4 ∨ (isConditional i = true ∧ t.pc = s.pc + 8) ∨
    ∃ addr, i = .jmp addr ∧ t.pc = addr.toNat
  /-- a register that changes is one `i` may write (R23) -/
  regs : ∀ q : RegId, t.regs[q] ≠ s.regs[q] → MayWrite s.cfg i q

variable {s t : State} {i : Instr}

theorem eq_of_writeReg_ne {d q : RegId} {v : Byte} (h : (s.writeReg d v).regs[q] ≠ s.regs[q]) : q = d := by
  by_contra hne
  exact h (s.readReg_writeReg_other (Ne.symm hne) v)

theorem ne_halt_of_destField {f : RegField} (h : destField i = some f) : i ≠ .halt := by
  rintro rfl
  cases h

theorem ne_halt_of_isConditional (h : isConditional i = true) : i ≠ .halt := by
  rintro rfl
  cases h

/-! The ways in which a rule completes. -/

theorem completes_writeReg_advance {d : RegId} (hd : destField i = some (regField d)) (v : Byte) :
    s.Completes i (s.writeReg d v).advance where
  rs _ := rfl
  halted h := absurd h (ne_halt_of_destField hd)
  events := .inl rfl
  pc := .inl rfl
  regs q h := .inl (by rw [eq_of_writeReg_ne h, hd])

theorem completes_skipUnless (hi : isConditional i = true) (b : Bool) :
    s.Completes i (s.skipUnless b) where
  rs _ := rfl
  halted h := absurd h (ne_halt_of_isConditional hi)
  events := .inl rfl
  pc := match b with
    | true => .inl rfl
    | false => .inr (.inl ⟨hi, rfl⟩)
  regs _ h := absurd rfl h

theorem completes_emit_advance (hi : i ≠ .halt) (e : HostEvent) : s.Completes i (s.emit e).advance where
  rs _ := rfl
  halted h := absurd h hi
  events := .inr ⟨e, rfl⟩
  pc := .inl rfl
  regs _ h := absurd rfl h

theorem completes_color (n : Byte) :
    s.Completes (.color n) ((s.writeReg drawColor n).emit (.setColor n)).advance where
  rs _ := rfl
  halted := nofun
  events := .inr ⟨_, rfl⟩
  pc := .inl rfl
  regs _ h := .inr (.inl ⟨n, rfl, eq_of_writeReg_ne h⟩)

theorem completes_rand (d : RegId) (n : Byte) :
    s.Completes (.rand (regField d) n) ((s.afterRandom n).writeReg d (s.randomAnswer n)).advance where
  rs _ := rfl
  halted := nofun
  events := .inr ⟨_, rfl⟩
  pc := .inl rfl
  regs _ h := .inl (by rw [eq_of_writeReg_ne (s := s.afterRandom n) h, destField])

theorem completes_key (f : KeyField) (k : Key) (b : Bool) :
    s.Completes (.key f) ((s.afterKey k).skipUnless b) where
  rs _ := rfl
  halted := nofun
  events := .inr ⟨_, rfl⟩
  pc := match b with
    | true => .inl rfl
    | false => .inr (.inl ⟨rfl, rfl⟩)
  regs _ h := absurd rfl h

theorem completes_jmp (addr : Addr12) : s.Completes (.jmp addr) { s with pc := addr.toNat } where
  rs _ := rfl
  halted := nofun
  events := .inl rfl
  pc := .inr (.inr ⟨addr, rfl, rfl⟩)
  regs _ h := absurd rfl h

/-- The one register HALT can change is `TICK_REG` (R96). -/
theorem tickReg_of_countTick_ne {q : RegId} (h : s.countTick.regs[q] ≠ s.regs[q]) :
    s.cfg.tickReg = some q := by
  by_contra hq
  exact h (s.readReg_countTick_other hq)

theorem completes_halt : s.Completes .halt (s.countTick.advance.endRun.emit .done) where
  mem := by simp
  cfg := by simp
  fr := by simp
  ic := by simp
  rs h := absurd rfl h
  halted _ := by simp
  events := .inr ⟨.done, by simp⟩
  pc := .inl (by simp)
  regs _ h := .inr (.inr ⟨rfl, tickReg_of_countTick_ne h⟩)

/-! Every rule raises a fault of the core or completes. -/

/-- What the rule of `i` comes to from `s`: fault entry (R176) or completion. -/
def RaisesOrCompletes (s : State) (i : Instr) (o : Out) : Prop :=
  (∃ c, o = .next (s.raise c)) ∨ ∃ t, o = .next t ∧ s.Completes i t

theorem raisesOrCompletes_next (h : s.Completes i t) : RaisesOrCompletes s i (.next t) :=
  .inr ⟨t, rfl, h⟩

theorem raisesOrCompletes_raise (c : FaultCause) : RaisesOrCompletes s i (.next (s.raise c)) :=
  .inl ⟨c, rfl⟩

theorem raisesOrCompletes_withReg {f : RegField} {body : RegId → Out}
    (h : ∀ d, f = regField d → RaisesOrCompletes s i (body d)) :
    RaisesOrCompletes s i (withReg f s body) := by
  rcases withReg_cases s f body with ⟨d, hd, e⟩ | ⟨-, e⟩ <;> rw [e]
  · exact h d hd
  · exact raisesOrCompletes_raise _

theorem raisesOrCompletes_withKey {f : KeyField} {body : Key → Out}
    (h : ∀ k, RaisesOrCompletes s i (body k)) : RaisesOrCompletes s i (withKey f s body) := by
  rcases withKey_cases s f body with ⟨k, -, e⟩ | ⟨-, e⟩ <;> rw [e]
  · exact h k
  · exact raisesOrCompletes_raise _

theorem raisesOrCompletes_withPalette {n : Byte} (h : s.Completes i t) :
    RaisesOrCompletes s i (withPalette n s t) := by
  rcases withPalette_cases s n t with ⟨-, e⟩ | ⟨-, e⟩ <;> rw [e]
  · exact raisesOrCompletes_raise _
  · exact raisesOrCompletes_next h

theorem raisesOrCompletes_drawSprite (hi : i ≠ .halt) (a : Nat) :
    RaisesOrCompletes s i (drawSprite a s) := by
  rcases drawSprite_cases s a with ⟨-, e⟩ | ⟨-, e⟩ <;> rw [e]
  · exact raisesOrCompletes_raise _
  · exact raisesOrCompletes_next (completes_emit_advance hi _)

theorem raisesOrCompletes_guarded {p : Prop} [Decidable p] {c : FaultCause} (h : s.Completes i t) :
    RaisesOrCompletes s i (.next (if p then s.raise c else t)) := by
  split
  · exact raisesOrCompletes_raise c
  · exact raisesOrCompletes_next h

theorem raisesOrCompletes_regRegOp {r : RegField} (hd : destField i = some r)
    (op : Byte → Byte → Byte) (q : RegField) : RaisesOrCompletes s i (regRegOp op r q s) :=
  raisesOrCompletes_withReg fun _ hr => raisesOrCompletes_withReg fun _ _ =>
    raisesOrCompletes_next (completes_writeReg_advance (hr ▸ hd) _)

theorem raisesOrCompletes_divideOp {r : RegField} (hd : destField i = some r)
    (op : Byte → Byte → Byte) (q : RegField) : RaisesOrCompletes s i (divideOp op r q s) :=
  raisesOrCompletes_withReg fun _ hr => raisesOrCompletes_withReg fun _ _ =>
    raisesOrCompletes_guarded (completes_writeReg_advance (hr ▸ hd) _)

theorem raisesOrCompletes_regLitOp {r : RegField} (hd : destField i = some r)
    (op : Byte → Byte → Byte) (n : Byte) : RaisesOrCompletes s i (regLitOp op r n s) :=
  raisesOrCompletes_withReg fun _ hr => raisesOrCompletes_next (completes_writeReg_advance (hr ▸ hd) _)

theorem raisesOrCompletes_skipOnRegs (hi : isConditional i = true) (c : Comparison) (r q : RegField) :
    RaisesOrCompletes s i (skipOnRegs c r q s) :=
  raisesOrCompletes_withReg fun _ _ => raisesOrCompletes_withReg fun _ _ =>
    raisesOrCompletes_next (completes_skipUnless hi _)

theorem raisesOrCompletes_skipOnLit (hi : isConditional i = true) (c : Comparison) (r : RegField)
    (n : Byte) : RaisesOrCompletes s i (skipOnLit c r n s) :=
  raisesOrCompletes_withReg fun _ _ => raisesOrCompletes_next (completes_skipUnless hi _)

/-- Every instruction's rule, whatever its fields hold, raises a fault of the core or completes. -/
theorem exec_raisesOrCompletes (i : Instr) (s : State) : RaisesOrCompletes s i (exec i s) := by
  cases i with
  | halt => exact raisesOrCompletes_next completes_halt
  | jmp addr => exact raisesOrCompletes_next (completes_jmp addr)
  | print r =>
    exact raisesOrCompletes_withReg fun _ _ =>
      raisesOrCompletes_next (completes_emit_advance (by simp) _)
  | clear n => exact raisesOrCompletes_withPalette (completes_emit_advance (by simp) _)
  | color n => exact raisesOrCompletes_withPalette (completes_color n)
  | spra addr => exact raisesOrCompletes_drawSprite (by simp) _
  | spri addr => exact raisesOrCompletes_drawSprite (by simp) _
  | set r q => exact raisesOrCompletes_regRegOp rfl (fun _ b => b) q
  | add r q => exact raisesOrCompletes_regRegOp rfl _ q
  | sub r q => exact raisesOrCompletes_regRegOp rfl _ q
  | mul r q => exact raisesOrCompletes_regRegOp rfl _ q
  | div r q => exact raisesOrCompletes_divideOp rfl _ q
  | mod r q => exact raisesOrCompletes_divideOp rfl _ q
  | and r q => exact raisesOrCompletes_regRegOp rfl _ q
  | or r q => exact raisesOrCompletes_regRegOp rfl _ q
  | xor r q => exact raisesOrCompletes_regRegOp rfl _ q
  | seti r n => exact raisesOrCompletes_regLitOp rfl (fun _ b => b) n
  | addi r n => exact raisesOrCompletes_regLitOp rfl _ n
  | rand r n =>
    refine raisesOrCompletes_withReg fun d hd => ?_
    subst hd
    exact raisesOrCompletes_guarded (completes_rand d n)
  | ifeq r q => exact raisesOrCompletes_skipOnRegs rfl .eq r q
  | ifne r q => exact raisesOrCompletes_skipOnRegs rfl .ne r q
  | iflt r q => exact raisesOrCompletes_skipOnRegs rfl .lt r q
  | ifle r q => exact raisesOrCompletes_skipOnRegs rfl .le r q
  | ifgt r q => exact raisesOrCompletes_skipOnRegs rfl .gt r q
  | ifge r q => exact raisesOrCompletes_skipOnRegs rfl .ge r q
  | ifeqi r n => exact raisesOrCompletes_skipOnLit rfl .eq r n
  | ifnei r n => exact raisesOrCompletes_skipOnLit rfl .ne r n
  | key f => exact raisesOrCompletes_withKey fun k => raisesOrCompletes_next (completes_key f k _)

/-! One step. -/

/-- A raised fault is not retired (R93). -/
theorem retire_raise (s : State) (c : FaultCause) : (s.raise c).retire = s.raise c := if_pos rfl

theorem step_of_beginStep_raises {c : FaultCause} (hr : s.rs = .running) (h : beginStep s = .raises c) :
    step s = .next (s.raise c) := by simp [step, hr, h]

theorem step_of_executes (h : s.Executes i) : step s = finishStep (exec i s) := by
  simp [step, h.1.running, beginStep_of_executes s h]

/-- What a step can be: the host's chance between runs (R187), fault entry before the instruction's
rule or by it (R176), or an instruction that completes (R93). -/
theorem step_cases (h : step s = .next t) :
    (s.rs ≠ .running ∧ t = s.await) ∨ (s.rs = .running ∧ ∃ c, t = s.raise c) ∨
      ∃ i u, s.Executes i ∧ exec i s = .next u ∧ s.Completes i u ∧ t = u.retire := by
  by_cases hr : s.rs = .running
  case neg =>
    rw [step_of_not_running hr] at h
    injection h with h
    exact .inl ⟨hr, h.symm⟩
  case pos =>
    refine .inr ?_
    rcases beginStep_cases s with ⟨c, hc⟩ | ⟨i, hi, -⟩
    · rw [step_of_beginStep_raises hr hc] at h
      injection h with h
      exact .inl ⟨hr, c, h.symm⟩
    · have hx := executes_of_beginStep s hr hi
      rw [step_of_executes hx] at h
      rcases exec_raisesOrCompletes i s with ⟨c, hc⟩ | ⟨u, hu, hk⟩
      · rw [hc] at h
        injection h with h
        exact .inl ⟨hr, c, by rw [← h, retire_raise]⟩
      · rw [hu] at h
        injection h with h
        exact .inr ⟨i, u, hx, hu, hk, h.symm⟩

/-! Any number of steps. -/

/-- What every step keeps holds after any number of them. -/
theorem reaches_keeps {P : State → Prop} (hstep : ∀ {u v}, step u = .next v → P u → P v) {k : Nat}
    (h : s.Reaches k t) (hs : P s) : P t := by
  induction k generalizing s with
  | zero => exact reaches_zero.mp h ▸ hs
  | succ k ih =>
    obtain ⟨u, hu, hr⟩ := reaches_succ.mp h
    exact ih hr (hstep hu hs)

/-- `t` has the image (R31) and the parameters (R6) of `s`. -/
def State.SameImage (s t : State) : Prop := t.mem = s.mem ∧ t.cfg = s.cfg

theorem State.SameImage.trans {u : State} (h : s.SameImage t) (h' : t.SameImage u) : s.SameImage u :=
  ⟨h'.1.trans h.1, h'.2.trans h.2⟩

theorem step_sameImage (h : step s = .next t) : s.SameImage t := by
  rcases step_cases h with ⟨-, rfl⟩ | ⟨-, c, rfl⟩ | ⟨i, u, -, -, hk, rfl⟩
  · obtain ⟨-, hmem, hcfg, -⟩ := await_keeps s
    exact ⟨hmem, hcfg⟩
  · exact ⟨rfl, rfl⟩
  · exact ⟨u.retire_mem.trans hk.mem, u.retire_cfg.trans hk.cfg⟩

theorem reaches_sameImage {k : Nat} (h : s.Reaches k t) : s.SameImage t :=
  reaches_keeps (fun hstep hs => hs.trans (step_sameImage hstep)) h ⟨rfl, rfl⟩

end Sys2Proof.Machine

namespace Sys2Proof.Proofs
open Sys2Proof.Machine

/-- Settles O11: a step keeps the image and the parameters in each of the cases of `step_cases`, so any
number of steps does. -/
theorem theImageNeverChanges : Obligations.TheImageNeverChanges := by
  intro k s t h
  obtain ⟨hmem, hcfg⟩ := reaches_sameImage h
  exact ⟨hmem, hcfg, fun a => by rw [hmem]⟩

end Sys2Proof.Proofs
end

section
/-! PROOFS. The state over one step (spec/10_state.md): what the core's invariant, its registers, its pc
and its instruction count do in each of the cases of `step_cases`, and the values of power-on reset. -/

namespace Sys2Proof.Machine

variable {s t : State} {i : Instr}

/-! The host's chance between runs. -/

/-- Between runs the core starts a run, which it does only from IDLE (R90), or waits on (R187). -/
theorem await_starts_or_waits (s : State) :
    (s.rs = .idle ∧ s.await =
      { s.afterTickChance with pc := 0, ic := 0, rs := .running, events := s.events ++ [.tick] }) ∨
      s.await = s.afterTickChance := by
  rcases await_cases s with h | h
  · by_cases hi : s.rs = .idle
    · exact .inl ⟨hi, h.trans (tick_idle s.afterTickChance hi)⟩
    · exact .inr (h.trans (tick_not_idle s.afterTickChance hi))
  · exact .inr h

/-- A run that starts does so at address 0 with an instruction count of 0 (R90). -/
theorem await_running (hs : s.rs ≠ .running) (h : s.await.rs = .running) :
    s.await.pc = 0 ∧ s.await.ic = 0 := by
  rcases await_starts_or_waits s with ⟨-, e⟩ | e
  · simp [e]
  · rw [e] at h
    exact absurd h hs

/-! An instruction that completes. -/

/-- The next step executes one instruction at most: the one its slot decodes to. -/
theorem executes_unique {j : Instr} (h : s.Executes i) (h' : s.Executes j) : i = j :=
  Decoded.instr.inj (h.2.symm.trans h'.2)

/-- An instruction that completes in a run does not leave the core in FAULTED. -/
theorem State.Completes.rs_ne_faulted (h : s.Completes i t) (hr : s.rs = .running) :
    t.rs ≠ .faulted := by
  by_cases hi : i = .halt
  · simp [(h.halted hi).1]
  · simp [h.rs hi, hr]

theorem State.Completes.retire_ic (h : s.Completes i t) (hr : s.rs = .running) :
    t.retire.ic = s.ic + 1 := by
  rw [t.retire_ic_completed (h.rs_ne_faulted hr), h.ic]

/-- From a slot in memory a rule takes the pc to 4100 at most: by the skip in the last slot (R24). -/
theorem State.Completes.pc_le (h : s.Completes i t) (hp : s.pc + 4 ≤ 4096) : t.pc ≤ 4100 := by
  rcases h.pc with e | ⟨-, e⟩ | ⟨addr, -, e⟩
  · omega
  · omega
  · have := addr.isLt
    omega

/-- Without `TICK_REG` HALT changes no register, and it leaves the core in IDLE (R96). -/
theorem step_halt (hx : s.Executes .halt) (hn : s.cfg.tickReg = none) (h : step s = .next t) :
    t.rs = .idle ∧ t.regs = s.regs := by
  have hexec : exec .halt s = .next (s.countTick.advance.endRun.emit .done) := rfl
  have hcount : s.countTick = s := by simp [State.countTick, hn]
  rw [step_of_executes hx, hexec, hcount] at h
  injection h with h
  subst h
  simp

/-! The invariant of `State.Consistent`. -/

theorem consistent_powerOn {c : Config} (hc : c.paletteOk) : (State.powerOn c).Consistent where
  memory := rfl
  pcBound := Nat.zero_le _
  recordEmpty _ := rfl
  recordKept := nofun
  countBound _ _ := Nat.zero_le _
  palette := hc

/-- The invariant does not speak of the host's side. -/
theorem State.Consistent.afterTickChance (h : s.Consistent) : s.afterTickChance.Consistent :=
  { h with }

theorem State.Consistent.await (h : s.Consistent) : s.await.Consistent := by
  rcases await_starts_or_waits s with ⟨hi, e⟩ | e <;> rw [e]
  · exact
      { memory := h.memory
        pcBound := Nat.zero_le _
        recordEmpty := fun _ => h.recordEmpty (by simp [hi])
        recordKept := nofun
        countBound := fun _ _ => Nat.zero_le _
        palette := h.palette }
  · exact h.afterTickChance

/-- Fault entry fills `FR` with the pc that stays (R176). -/
theorem State.Consistent.raise (h : s.Consistent) (c : FaultCause) : (s.raise c).Consistent where
  memory := h.memory
  pcBound := h.pcBound
  recordEmpty hf := absurd rfl hf
  recordKept _ := ⟨c, rfl⟩
  countBound := h.countBound
  palette := h.palette

/-- The checks before the rule bound the two numbers that grow: the range check the pc (R92), the
watchdog check the instruction count (R91). -/
theorem State.Consistent.retire_of_completes (h : s.Consistent) (hf : s.CanFetch)
    (hk : s.Completes i t) : t.retire.Consistent where
  memory := by rw [t.retire_mem, hk.mem, h.memory]
  pcBound := by
    rw [t.retire_pc]
    exact hk.pc_le hf.inRange
  recordEmpty _ := by rw [t.retire_fr, hk.fr, h.recordEmpty (by simp [hf.running])]
  recordKept hrs := by
    rw [t.retire_rs] at hrs
    exact absurd hrs (hk.rs_ne_faulted hf.running)
  countBound limit hl := by
    rw [t.retire_cfg, hk.cfg] at hl
    rw [hk.retire_ic hf.running]
    exact hf.watchdog limit hl
  palette := by
    rw [t.retire_cfg, hk.cfg]
    exact h.palette

theorem step_consistent (hs : s.Consistent) (h : step s = .next t) : t.Consistent := by
  rcases step_cases h with ⟨-, rfl⟩ | ⟨-, c, rfl⟩ | ⟨i, u, hx, -, hk, rfl⟩
  · exact hs.await
  · exact hs.raise c
  · exact hs.retire_of_completes hx.1 hk

/-! Power-on reset (R33, R200). -/

/-- The state after power-on is one that power-on reset leaves as it is. -/
theorem powerOn_eq_powerOnReset (c : Config) : State.powerOn c = (State.powerOn c).powerOnReset := rfl

theorem powerOnReset_reg (s : State) (q : RegId) : s.powerOnReset.regs[q] = 0 := by
  simp [State.powerOnReset]

theorem powerOnReset_values (s : State) :
    (∀ q : RegId, s.powerOnReset.regs[q] = 0) ∧ s.powerOnReset.pc = 0 ∧
      s.powerOnReset.rs = .idle ∧ s.powerOnReset.fr = none ∧ s.powerOnReset.ic = 0 :=
  ⟨powerOnReset_reg s, rfl, rfl, rfl, rfl⟩

end Sys2Proof.Machine

namespace Sys2Proof.Proofs
open Sys2Proof.Machine

/-- Settles O17: waiting, fault entry and completion each keep the invariant. -/
theorem everyStepKeepsTheCoreConsistent : Obligations.EveryStepKeepsTheCoreConsistent :=
  fun _ _ => step_consistent

/-- Settles O10: neither the host's chance nor fault entry changes a register, and an instruction that
completes changes only what R23 lets it write. -/
theorem registersChangeOnlyByTheirWriters : Obligations.RegistersChangeOnlyByTheirWriters := by
  intro s t q h hq
  rcases step_cases h with ⟨-, rfl⟩ | ⟨-, c, rfl⟩ | ⟨i, u, hx, -, hk, rfl⟩
  · exact absurd (congrArg (·[q]) (await_keeps s).1) hq
  · exact absurd rfl hq
  · rw [u.retire_regs] at hq
    exact ⟨i, hx, hk.regs q hq⟩

/-- Settles O14: a step of a run enters FAULTED with the old count, or completes an instruction. -/
theorem completedInstructionsAreCounted : Obligations.CompletedInstructionsAreCounted := by
  intro s t hr h
  rcases step_cases h with ⟨hn, -⟩ | ⟨-, c, rfl⟩ | ⟨i, u, -, -, hk, rfl⟩
  · exact absurd hr hn
  · simp
  · rw [u.retire_rs, if_neg (hk.rs_ne_faulted hr), hk.retire_ic hr]

/-- Settles O20: fault entry keeps the pc, and a rule that completes moves it in one of the three ways. -/
theorem thePcMovesByTheRules : Obligations.ThePcMovesByTheRules := by
  intro s t i hi h
  have hr := hi.1.running
  rcases step_cases h with ⟨hn, -⟩ | ⟨-, c, rfl⟩ | ⟨j, u, hj, -, hk, rfl⟩
  · exact absurd hr hn
  · exact ⟨fun _ => rfl, fun hf => absurd rfl hf⟩
  · obtain rfl := executes_unique hi hj
    rw [u.retire_rs, u.retire_pc]
    refine ⟨fun hf => absurd hf (hk.rs_ne_faulted hr), fun _ => ?_⟩
    rcases hk.pc with hnext | hskip | hjmp
    · exact .inl hnext
    · exact .inr (.inr hskip)
    · exact .inr (.inl hjmp)

/-- Settles O25: without `TICK_REG` HALT writes no register and leaves IDLE, where the next step is the
host's chance to start a run. -/
theorem registersPersistAcrossRuns : Obligations.RegistersPersistAcrossRuns := by
  intro s t u hx hn hst htu
  obtain ⟨hidle, hregs⟩ := step_halt hx hn hst
  have hnr : t.rs ≠ .running := by simp [hidle]
  rw [step_of_not_running hnr] at htu
  injection htu with htu
  subst htu
  exact ⟨hidle, (await_keeps t).1.trans hregs, await_running hnr⟩

/-- Settles O18: the invariant asks of the configuration only the bound of R6 on its palette. -/
theorem powerOnIsConsistent : Obligations.PowerOnIsConsistent :=
  ⟨fun _ => consistent_powerOn, consistent_powerOn (by decide)⟩

/-- Settles O19: power-on reset sets the values of R33, and the state after power-on is a case of it. -/
theorem powerOnResetValues : Obligations.PowerOnResetValues :=
  ⟨fun c => powerOn_eq_powerOnReset c ▸ powerOnReset_values (State.powerOn c), powerOnReset_values⟩

end Sys2Proof.Proofs
end

section
/-! PROOFS. Memory over one step (spec/20_memory.md): the range checks come before every read, so a step
always has a next state; and what a step reads of memory is the slot at the pc, and no more but for the
two sprite instructions (R47). -/

namespace Sys2Proof.Machine

variable {s u : State} {i : Instr}

/-! Every step has a next state. -/

/-- A fault of the core is a next state of the rule too (R176). -/
theorem exec_next (i : Instr) (s : State) : ∃ u, exec i s = .next u := by
  rcases exec_raisesOrCompletes i s with ⟨c, hc⟩ | ⟨u, hu, -⟩
  · exact ⟨s.raise c, hc⟩
  · exact ⟨u, hu⟩

theorem step_of_exec_next (hx : s.Executes i) (h : exec i s = .next u) : step s = .next u.retire := by
  rw [step_of_executes hx, h, finishStep]

/-- A step of a run faults before the instruction's rule or ends with what the rule comes to. -/
theorem step_running_next (hr : s.rs = .running) : ∃ t, step s = .next t := by
  rcases beginStep_cases s with ⟨c, hc⟩ | ⟨i, hi, -⟩
  · exact ⟨s.raise c, step_of_beginStep_raises hr hc⟩
  · obtain ⟨u, hu⟩ := exec_next i s
    exact ⟨u.retire, step_of_exec_next (executes_of_beginStep s hr hi) hu⟩

/-! The rules that read no memory. -/

/-- The state with another image. -/
def State.withMem (s : State) (m : Memory) : State := { s with mem := m }

/-- The rule depends on no byte of memory: with another image it does the same, and keeps that image. -/
def ReadsNoMemory (rule : State → Out) : Prop :=
  ∀ (s u : State) (m : Memory), rule s = .next u → rule (s.withMem m) = .next (u.withMem m)

theorem ite_withMem {p : Prop} [Decidable p] (s t : State) (m : Memory) :
    (if p then s.withMem m else t.withMem m) = (if p then s else t).withMem m :=
  (apply_ite (·.withMem m) p s t).symm

theorem withMem_countTick (s : State) (m : Memory) : (s.withMem m).countTick = s.countTick.withMem m := by
  unfold State.countTick State.withMem
  dsimp only
  split <;> rfl

theorem withMem_retire (s : State) (m : Memory) : (s.withMem m).retire = s.retire.withMem m :=
  ite_withMem s { s with ic := s.ic + 1 } m

theorem readsNoMemory_next {f : State → State} (hf : ∀ s m, f (s.withMem m) = (f s).withMem m) :
    ReadsNoMemory fun s => .next (f s) := by
  intro s u m h
  injection h with h
  exact congrArg _ ((hf s m).trans (congrArg (·.withMem m) h))

/-- A check of the rule's operands that raises a fault reads no memory either. -/
theorem readsNoMemory_guarded {p : State → Prop} [∀ s, Decidable (p s)] {c : FaultCause}
    {f : State → State} (hp : ∀ s m, p (s.withMem m) ↔ p s)
    (hf : ∀ s m, f (s.withMem m) = (f s).withMem m) :
    ReadsNoMemory fun s => .next (if p s then s.raise c else f s) := by
  refine readsNoMemory_next fun s m => ?_
  simp only [hp, hf]
  exact ite_withMem (s.raise c) (f s) m

theorem readsNoMemory_withReg {f : RegField} {body : RegId → State → Out}
    (h : ∀ d, ReadsNoMemory (body d)) : ReadsNoMemory fun s => withReg f s fun d => body d s := by
  unfold withReg
  cases regOf f with
  | some d => exact h d
  | none => exact readsNoMemory_next fun _ _ => rfl

theorem readsNoMemory_withKey {f : KeyField} {body : Key → State → Out}
    (h : ∀ k, ReadsNoMemory (body k)) : ReadsNoMemory fun s => withKey f s fun k => body k s := by
  unfold withKey
  cases keyOf f with
  | some k => exact h k
  | none => exact readsNoMemory_next fun _ _ => rfl

theorem readsNoMemory_withPalette {n : Byte} {f : State → State}
    (hf : ∀ s m, f (s.withMem m) = (f s).withMem m) : ReadsNoMemory fun s => withPalette n s (f s) :=
  readsNoMemory_guarded (fun _ _ => Iff.rfl) hf

theorem readsNoMemory_regRegOp (op : Byte → Byte → Byte) (r q : RegField) :
    ReadsNoMemory (regRegOp op r q) :=
  readsNoMemory_withReg fun _ => readsNoMemory_withReg fun _ => readsNoMemory_next fun _ _ => rfl

theorem readsNoMemory_divideOp (op : Byte → Byte → Byte) (r q : RegField) :
    ReadsNoMemory (divideOp op r q) :=
  readsNoMemory_withReg fun _ => readsNoMemory_withReg fun _ =>
    readsNoMemory_guarded (fun _ _ => Iff.rfl) fun _ _ => rfl

theorem readsNoMemory_regLitOp (op : Byte → Byte → Byte) (r : RegField) (n : Byte) :
    ReadsNoMemory (regLitOp op r n) :=
  readsNoMemory_withReg fun _ => readsNoMemory_next fun _ _ => rfl

theorem readsNoMemory_skipOnRegs (c : Comparison) (r q : RegField) : ReadsNoMemory (skipOnRegs c r q) :=
  readsNoMemory_withReg fun _ => readsNoMemory_withReg fun _ => readsNoMemory_next fun _ _ => rfl

theorem readsNoMemory_skipOnLit (c : Comparison) (r : RegField) (n : Byte) :
    ReadsNoMemory (skipOnLit c r n) :=
  readsNoMemory_withReg fun _ => readsNoMemory_next fun _ _ => rfl

theorem readsNoMemory_execHalt : ReadsNoMemory execHalt :=
  readsNoMemory_next fun s m => by
    rw [withMem_countTick]
    rfl

/-- R47: SPRA and SPRI are the only instructions whose rule reads memory. -/
theorem readsNoMemory_exec (hspra : ∀ a, i ≠ .spra a) (hspri : ∀ a, i ≠ .spri a) :
    ReadsNoMemory (exec i) := by
  cases i with
  | halt => exact readsNoMemory_execHalt
  | jmp addr => exact readsNoMemory_next fun _ _ => rfl
  | print r => exact readsNoMemory_withReg fun _ => readsNoMemory_next fun _ _ => rfl
  | clear n => exact readsNoMemory_withPalette fun _ _ => rfl
  | color n => exact readsNoMemory_withPalette fun _ _ => rfl
  | spra addr => exact absurd rfl (hspra addr)
  | spri addr => exact absurd rfl (hspri addr)
  | set r q => exact readsNoMemory_regRegOp (fun _ b => b) r q
  | add r q => exact readsNoMemory_regRegOp _ r q
  | sub r q => exact readsNoMemory_regRegOp _ r q
  | mul r q => exact readsNoMemory_regRegOp _ r q
  | div r q => exact readsNoMemory_divideOp _ r q
  | mod r q => exact readsNoMemory_divideOp _ r q
  | and r q => exact readsNoMemory_regRegOp _ r q
  | or r q => exact readsNoMemory_regRegOp _ r q
  | xor r q => exact readsNoMemory_regRegOp _ r q
  | seti r n => exact readsNoMemory_regLitOp (fun _ b => b) r n
  | addi r n => exact readsNoMemory_regLitOp _ r n
  | rand r n =>
    exact readsNoMemory_withReg fun _ => readsNoMemory_guarded (fun _ _ => Iff.rfl) fun _ _ => rfl
  | ifeq r q => exact readsNoMemory_skipOnRegs .eq r q
  | ifne r q => exact readsNoMemory_skipOnRegs .ne r q
  | iflt r q => exact readsNoMemory_skipOnRegs .lt r q
  | ifle r q => exact readsNoMemory_skipOnRegs .le r q
  | ifgt r q => exact readsNoMemory_skipOnRegs .gt r q
  | ifge r q => exact readsNoMemory_skipOnRegs .ge r q
  | ifeqi r n => exact readsNoMemory_skipOnLit .eq r n
  | ifnei r n => exact readsNoMemory_skipOnLit .ne r n
  | key f => exact readsNoMemory_withKey fun _ => readsNoMemory_next fun _ _ => rfl

/-! The fetch. -/

theorem slotAt_withMem {m : Memory} {a : Nat}
    (h : ∀ d, d < 4 → readByte m (a + d) = readByte s.mem (a + d)) :
    (s.withMem m).slotAt a = s.slotAt a := by
  have h0 : readByte m a = readByte s.mem a := h 0 (by decide)
  simp [State.slotAt, State.withMem, h0, h]

/-- The checks before the fetch read no memory (R91, R92), and the fetch reads the slot at the pc. -/
theorem State.Executes.withMem (hx : s.Executes i) {m : Memory}
    (h : ∀ d, d < 4 → readByte m (s.pc + d) = readByte s.mem (s.pc + d)) :
    (s.withMem m).Executes i := by
  obtain ⟨⟨hrun, hwatch, halign, hrange⟩, hdec⟩ := hx
  exact ⟨⟨hrun, hwatch, halign, hrange⟩, (congrArg decode (slotAt_withMem h)).trans hdec⟩

end Sys2Proof.Machine

namespace Sys2Proof.Proofs
open Sys2Proof.Machine

/-- Settles O8: outside a run a step is the host's chance, and in a run neither the part before the
instruction's rule nor the rule stops the model. -/
theorem everyStepHasANextState : Obligations.EveryStepHasANextState := by
  intro s
  by_cases hr : s.rs = .running
  · exact step_running_next hr
  · exact ⟨s.await, step_of_not_running hr⟩

/-- Settles O22: the other image has the same slot at the pc, so the step executes the same instruction,
and neither its rule nor the end of the step reads memory. -/
theorem aStepReadsOnlyItsSlot : Obligations.AStepReadsOnlyItsSlot := by
  intro s t i m hx hspra hspri hslot h
  obtain ⟨u, hu⟩ := exec_next i s
  rw [step_of_exec_next hx hu] at h
  injection h with h
  calc step (s.withMem m)
    _ = .next (u.withMem m).retire :=
        step_of_exec_next (hx.withMem hslot) (readsNoMemory_exec hspra hspri s u m hu)
    _ = .next (t.withMem m) := by rw [withMem_retire, h]

end Sys2Proof.Proofs
end

section
/-! PROOFS. The decoder and the encoder (spec/30_encoding.md R62 to R77): they are inverse, because each
row of R71 writes back the fields it read; and the illegal patterns are those that R73 lists. -/

namespace Sys2Proof

variable {b : Bytes4} {b0 : Byte} {f : Format} {i : Instr}

/-! The rows of R71. -/

/-- The opcode bytes of a format (R71). -/
def Format.opcodes : Format → List Byte
  | .n => [0x00#8]
  | .a => [0x01#8, 0x05#8, 0x06#8]
  | .r => [0x02#8]
  | .l => [0x03#8, 0x04#8]
  | .rfr => [0x07#8, 0x0B#8]
  | .rl => [0x08#8, 0x09#8, 0x0A#8, 0x0C#8, 0x0D#8]
  | .k => [0x0E#8]

theorem mem_opcodes_of_formatOf (h : formatOf b0 = some f) : b0 ∈ f.opcodes := by
  revert b0
  cases f <;> decide

theorem formatOf_eq_none_iff : formatOf b0 = none ↔ 0x0F ≤ b0.toNat := by
  revert b0
  decide

/-- The rows of opcode 0x07 (R69): an id below 9 selects an instruction that has the two register fields,
and whose encoding has the id. -/
theorem regOpOf_cases (g : Nibble) (r q : RegField) :
    (9 ≤ g.toNat ∧ regOpOf g r q = none) ∨
      (g.toNat < 9 ∧ ∃ i, regOpOf g r q = some i ∧
        i.wellFormed = (regFieldOk r && regFieldOk q) ∧ encode i = encodeRFR 0x07#8 g r q) := by
  obtain ⟨⟨k, hk⟩⟩ := g
  by_cases h : k < 9
  · refine .inr ⟨h, ?_⟩
    interval_cases k <;> exact ⟨_, rfl, rfl, rfl⟩
  · refine .inl ⟨not_lt.mp h, ?_⟩
    interval_cases k <;> rfl

/-- The rows of opcode 0x0B (R70): the same, with ids below 6. -/
theorem conditionalOf_cases (g : Nibble) (r q : RegField) :
    (6 ≤ g.toNat ∧ conditionalOf g r q = none) ∨
      (g.toNat < 6 ∧ ∃ i, conditionalOf g r q = some i ∧
        i.wellFormed = (regFieldOk r && regFieldOk q) ∧ encode i = encodeRFR 0x0B#8 g r q) := by
  obtain ⟨⟨k, hk⟩⟩ := g
  by_cases h : k < 6
  · refine .inr ⟨h, ?_⟩
    interval_cases k <;> exact ⟨_, rfl, rfl, rfl⟩
  · refine .inl ⟨not_lt.mp h, ?_⟩
    interval_cases k <;> rfl

/-! What the decoder accepts (R75). -/

/-- The decoder's checks under a known opcode: clear filler bits, a row of R71, fields in range. -/
theorem decode_eq_instr_iff (hf : formatOf b.b0 = some f) : decode b = .instr i ↔
    fillersClear f b = true ∧ selectInstr b = some i ∧ i.wellFormed = true := by
  simp only [decode, hf]
  split_ifs with hc
  · cases selectInstr b with
    | none => simp [hc]
    | some j =>
      simp only [hc, Option.some.injEq, true_and]
      split_ifs with hw
      · simp only [Decoded.instr.injEq]
        exact ⟨fun h => ⟨h, h ▸ hw⟩, And.left⟩
      · exact iff_of_false nofun fun ⟨hj, hi⟩ => hw (hj ▸ hi)
  · simp [hc]

theorem formatOf_of_decode (h : decode b = .instr i) : ∃ f, formatOf b.b0 = some f := by
  refine Option.ne_none_iff_exists'.mp fun hf => ?_
  simp [decode, hf] at h

theorem decode_eq_opcode_iff : decode b = .illegal .opcode ↔ 0x0F ≤ b.b0.toNat := by
  rw [← formatOf_eq_none_iff]
  cases hf : formatOf b.b0 with
  | none => simp [decode, hf]
  | some f =>
    simp only [decode, hf]
    split_ifs
    · split
      · split_ifs <;> simp
      · simp
    · simp

/-- A slot with a known opcode is illegal when it is no instruction. -/
theorem decode_eq_operand_iff :
    decode b = .illegal .operand ↔ b.b0.toNat ≤ 0x0E ∧ ¬ ∃ i, decode b = .instr i := by
  have known : b.b0.toNat ≤ 0x0E ↔ decode b ≠ .illegal .opcode := by
    rw [Ne, decode_eq_opcode_iff]
    omega
  rw [known]
  cases decode b with
  | instr i => simp
  | illegal c => cases c <;> simp

/-! Decode of encode. -/

/-- The opcode of an encoding is known and no filler bit of it is set (R62). -/
theorem encode_filler (i : Instr) : Laws.EncodeFiller.Statement i := by
  cases i with
  | halt => exact Laws.EncodeFiller.halt
  | jmp addr => exact Laws.EncodeFiller.jmp addr
  | print r => exact Laws.EncodeFiller.print r
  | clear n => exact Laws.EncodeFiller.clear n
  | color n => exact Laws.EncodeFiller.color n
  | spra addr => exact Laws.EncodeFiller.spra addr
  | spri addr => exact Laws.EncodeFiller.spri addr
  | set r q => exact Laws.EncodeFiller.set r q
  | add r q => exact Laws.EncodeFiller.add r q
  | sub r q => exact Laws.EncodeFiller.sub r q
  | mul r q => exact Laws.EncodeFiller.mul r q
  | div r q => exact Laws.EncodeFiller.div r q
  | mod r q => exact Laws.EncodeFiller.mod r q
  | and r q => exact Laws.EncodeFiller.and r q
  | or r q => exact Laws.EncodeFiller.or r q
  | xor r q => exact Laws.EncodeFiller.xor r q
  | seti r n => exact Laws.EncodeFiller.seti r n
  | addi r n => exact Laws.EncodeFiller.addi r n
  | rand r n => exact Laws.EncodeFiller.rand r n
  | ifeq r q => exact Laws.EncodeFiller.ifeq r q
  | ifne r q => exact Laws.EncodeFiller.ifne r q
  | iflt r q => exact Laws.EncodeFiller.iflt r q
  | ifle r q => exact Laws.EncodeFiller.ifle r q
  | ifgt r q => exact Laws.EncodeFiller.ifgt r q
  | ifge r q => exact Laws.EncodeFiller.ifge r q
  | ifeqi r n => exact Laws.EncodeFiller.ifeqi r n
  | ifnei r n => exact Laws.EncodeFiller.ifnei r n
  | key k => exact Laws.EncodeFiller.key k

theorem selectInstr_encodeRFR_regOp (g : Nibble) (r q : RegField) :
    selectInstr (encodeRFR 0x07#8 g r q) = regOpOf g r q := by
  simp [selectInstr, encodeRFR]

theorem selectInstr_encodeRFR_conditional (g : Nibble) (r q : RegField) :
    selectInstr (encodeRFR 0x0B#8 g r q) = conditionalOf g r q := by
  simp [selectInstr, encodeRFR]

/-- A row of format RL reads back the register and the literal it was encoded with. -/
theorem selectInstr_encodeRL (row : RegField → Byte → Instr) (r : RegField) (n : Byte) {opc : Byte}
    (h : selectInstr (encodeRL opc r n) =
      some (row (lowNibble (operandByte r)) (literalField (encodeRL opc r n)))) :
    selectInstr (encodeRL opc r n) = some (row r n) := by
  rw [h, lowNibble_operandByte, literalField_encodeRL]

/-- The decoder's row reads back every field that the encoder wrote (R67 to R70). -/
theorem selectInstr_encode (i : Instr) : selectInstr (encode i) = some i := by
  cases i with
  | halt => rfl
  | jmp addr => exact congrArg (some ∘ Instr.jmp) (addrField_encodeA _ addr)
  | print r => exact congrArg (some ∘ Instr.print) (lowNibble_operandByte r)
  | clear n => exact congrArg (some ∘ Instr.clear) (literalField_encodeL _ n)
  | color n => exact congrArg (some ∘ Instr.color) (literalField_encodeL _ n)
  | spra addr => exact congrArg (some ∘ Instr.spra) (addrField_encodeA _ addr)
  | spri addr => exact congrArg (some ∘ Instr.spri) (addrField_encodeA _ addr)
  | set r q => exact selectInstr_encodeRFR_regOp 0#4 r q
  | add r q => exact selectInstr_encodeRFR_regOp 1#4 r q
  | sub r q => exact selectInstr_encodeRFR_regOp 2#4 r q
  | mul r q => exact selectInstr_encodeRFR_regOp 3#4 r q
  | div r q => exact selectInstr_encodeRFR_regOp 4#4 r q
  | mod r q => exact selectInstr_encodeRFR_regOp 5#4 r q
  | and r q => exact selectInstr_encodeRFR_regOp 6#4 r q
  | or r q => exact selectInstr_encodeRFR_regOp 7#4 r q
  | xor r q => exact selectInstr_encodeRFR_regOp 8#4 r q
  | seti r n => exact selectInstr_encodeRL .seti r n rfl
  | addi r n => exact selectInstr_encodeRL .addi r n rfl
  | rand r n => exact selectInstr_encodeRL .rand r n rfl
  | ifeq r q => exact selectInstr_encodeRFR_conditional 0#4 r q
  | ifne r q => exact selectInstr_encodeRFR_conditional 1#4 r q
  | iflt r q => exact selectInstr_encodeRFR_conditional 2#4 r q
  | ifle r q => exact selectInstr_encodeRFR_conditional 3#4 r q
  | ifgt r q => exact selectInstr_encodeRFR_conditional 4#4 r q
  | ifge r q => exact selectInstr_encodeRFR_conditional 5#4 r q
  | ifeqi r n => exact selectInstr_encodeRL .ifeqi r n rfl
  | ifnei r n => exact selectInstr_encodeRL .ifnei r n rfl
  | key k => exact congrArg (some ∘ Instr.key) (lowNibble_operandByte k)

/-! Encode of decode. -/

theorem highNibble_append (x y : Nibble) : highNibble (x ++ y) = x :=
  BitVec.extractLsb'_append_eq_left

theorem lowNibble_append (x y : Nibble) : lowNibble (x ++ y) = y :=
  BitVec.extractLsb'_append_eq_right

/-- The nibbles of an address, the most significant first (R67). -/
theorem addrNibbles_append (x y z : Nibble) :
    (x ++ y ++ z : Addr12).extractLsb' 8 4 = x ∧ (x ++ y ++ z : Addr12).extractLsb' 4 4 = y ∧
      (x ++ y ++ z : Addr12).extractLsb' 0 4 = z := by
  refine ⟨?_, ?_, BitVec.extractLsb'_append_eq_right⟩
  · rw [BitVec.extractLsb'_append_eq_of_le (by decide)]
    exact BitVec.extractLsb'_append_eq_left
  · rw [BitVec.extractLsb'_append_eq_of_le (by decide)]
    exact BitVec.extractLsb'_append_eq_right

theorem encodeA_addrField (opc : Byte) (b : Bytes4) : encodeA opc (addrField b) =
    ⟨opc, operandByte (lowNibble b.b1), operandByte (lowNibble b.b2), operandByte (lowNibble b.b3)⟩ := by
  obtain ⟨h8, h4, h0⟩ := addrNibbles_append (lowNibble b.b1) (lowNibble b.b2) (lowNibble b.b3)
  simp only [encodeA, addrField, h8, h4, h0]

theorem encodeL_literalField (opc : Byte) (b : Bytes4) : encodeL opc (literalField b) =
    ⟨opc, 0#8, operandByte (lowNibble b.b2), operandByte (lowNibble b.b3)⟩ := by
  simp only [encodeL, literalField, highNibble_append, lowNibble_append]

theorem encodeRL_literalField (opc : Byte) (r : RegField) (b : Bytes4) :
    encodeRL opc r (literalField b) =
      ⟨opc, operandByte r, operandByte (lowNibble b.b2), operandByte (lowNibble b.b3)⟩ := by
  simp only [encodeRL, literalField, highNibble_append, lowNibble_append]

/-- The slot `b` with every bit cleared that is no opcode or field bit of the format (R62, R63). -/
def clearFillers (b : Bytes4) : Format → Bytes4
  | .n => ⟨b.b0, 0#8, 0#8, 0#8⟩
  | .r | .k => ⟨b.b0, operandByte (lowNibble b.b1), 0#8, 0#8⟩
  | .l => ⟨b.b0, 0#8, operandByte (lowNibble b.b2), operandByte (lowNibble b.b3)⟩
  | .a | .rfr | .rl =>
    ⟨b.b0, operandByte (lowNibble b.b1), operandByte (lowNibble b.b2), operandByte (lowNibble b.b3)⟩

theorem fillerClear_true_iff_operandByte (x : Byte) :
    fillerClear true x = true ↔ operandByte (lowNibble x) = x := by
  revert x
  decide

theorem fillerClear_false_iff (x : Byte) : fillerClear false x = true ↔ 0#8 = x := by
  revert x
  decide

/-- A slot has clear filler bits exactly when clearing them changes nothing. -/
theorem fillersClear_iff_clearFillers : fillersClear f b = true ↔ clearFillers b f = b := by
  cases f <;> cases b <;>
    simp [fillersClear, clearFillers, fillerClear_true_iff_operandByte, fillerClear_false_iff, and_assoc]

/-! The rows of R71 and the illegal patterns of R73, in the order of the rule's items. -/

/-- R73 items 1 and 2: a filler bit is set, or a byte that the format does not use is not 0. -/
def FillerBitSet (b : Bytes4) : Prop :=
  (16 ≤ b.b1.toNat ∨ 16 ≤ b.b2.toNat ∨ 16 ≤ b.b3.toNat) ∨
  (b.b0.toNat = 0x00 ∧ (b.b1 ≠ 0 ∨ b.b2 ≠ 0 ∨ b.b3 ≠ 0)) ∨
  ((b.b0.toNat = 0x02 ∨ b.b0.toNat = 0x0E) ∧ (b.b2 ≠ 0 ∨ b.b3 ≠ 0)) ∨
  ((b.b0.toNat = 0x03 ∨ b.b0.toNat = 0x04) ∧ b.b1 ≠ 0)

/-- R73 items 3 to 6: a register field, an operation, comparison or key id is out of range. -/
def FieldOutOfRange (b : Bytes4) : Prop :=
  ((b.b0.toNat = 0x02 ∨ (0x07 ≤ b.b0.toNat ∧ b.b0.toNat ≤ 0x0D)) ∧ 12 ≤ b.b1.toNat % 16) ∨
  ((b.b0.toNat = 0x07 ∨ b.b0.toNat = 0x0B) ∧ 12 ≤ b.b3.toNat % 16) ∨
  (b.b0.toNat = 0x07 ∧ 9 ≤ b.b2.toNat % 16) ∨
  (b.b0.toNat = 0x0B ∧ 6 ≤ b.b2.toNat % 16) ∨
  (b.b0.toNat = 0x0E ∧ 5 ≤ b.b1.toNat % 16)

theorem lowNibble_toNat (x : Byte) : (lowNibble x).toNat = x.toNat % 16 := by
  revert x
  decide

theorem regFieldOk_lowNibble_iff (x : Byte) : regFieldOk (lowNibble x) = true ↔ x.toNat % 16 < 12 := by
  simp [regFieldOk, lowNibble_toNat]

theorem keyFieldOk_lowNibble_iff (x : Byte) : keyFieldOk (lowNibble x) = true ↔ x.toNat % 16 < 5 := by
  simp [keyFieldOk, lowNibble_toNat]

/-- The row of a slot with the format `f`: it is missing because an id is out of range, or it selects an
instruction that has the fields of the slot. -/
def ReadsRow (b : Bytes4) (f : Format) : Prop :=
  (FieldOutOfRange b ∧ selectInstr b = none) ∨
    ∃ i, selectInstr b = some i ∧ (i.wellFormed = true ↔ ¬ FieldOutOfRange b) ∧
      encode i = clearFillers b f

theorem readsRow_regOp (b1 b2 b3 : Byte) : ReadsRow ⟨0x07#8, b1, b2, b3⟩ .rfr := by
  rcases regOpOf_cases (lowNibble b2) (lowNibble b1) (lowNibble b3) with
    ⟨hg, hi⟩ | ⟨hg, i, hi, hw, he⟩ <;> rw [lowNibble_toNat] at hg
  · exact .inl ⟨.inr (.inr (.inl ⟨rfl, hg⟩)), hi⟩
  · refine .inr ⟨i, hi, ?_, he⟩
    simp [hw, FieldOutOfRange, regFieldOk_lowNibble_iff, hg]

theorem readsRow_conditional (b1 b2 b3 : Byte) : ReadsRow ⟨0x0B#8, b1, b2, b3⟩ .rfr := by
  rcases conditionalOf_cases (lowNibble b2) (lowNibble b1) (lowNibble b3) with
    ⟨hg, hi⟩ | ⟨hg, i, hi, hw, he⟩ <;> rw [lowNibble_toNat] at hg
  · exact .inl ⟨.inr (.inr (.inr (.inl ⟨rfl, hg⟩))), hi⟩
  · refine .inr ⟨i, hi, ?_, he⟩
    simp [hw, FieldOutOfRange, regFieldOk_lowNibble_iff, hg]

/-- Every row of R71, by format. -/
theorem readsRow_of_formatOf (hf : formatOf b.b0 = some f) : ReadsRow b f := by
  have hb := mem_opcodes_of_formatOf hf
  obtain ⟨b0, b1, b2, b3⟩ := b
  cases f <;> simp only [Format.opcodes, List.mem_cons, List.not_mem_nil, or_false] at hb
  case n =>
    subst hb
    exact .inr ⟨_, rfl, by simp [Instr.wellFormed, FieldOutOfRange], rfl⟩
  case a =>
    rcases hb with rfl | rfl | rfl <;>
      exact .inr ⟨_, rfl, by simp [Instr.wellFormed, FieldOutOfRange], encodeA_addrField _ _⟩
  case r =>
    subst hb
    exact .inr ⟨_, rfl, by simp [Instr.wellFormed, FieldOutOfRange, regFieldOk_lowNibble_iff], rfl⟩
  case l =>
    rcases hb with rfl | rfl <;>
      exact .inr ⟨_, rfl, by simp [Instr.wellFormed, FieldOutOfRange], encodeL_literalField _ _⟩
  case rfr =>
    rcases hb with rfl | rfl
    · exact readsRow_regOp b1 b2 b3
    · exact readsRow_conditional b1 b2 b3
  case rl =>
    rcases hb with rfl | rfl | rfl | rfl | rfl <;>
      exact .inr ⟨_, rfl, by simp [Instr.wellFormed, FieldOutOfRange, regFieldOk_lowNibble_iff],
        encodeRL_literalField _ _ _⟩
  case k =>
    subst hb
    exact .inr ⟨_, rfl, by simp [Instr.wellFormed, FieldOutOfRange, keyFieldOk_lowNibble_iff], rfl⟩

/-- The instruction a row selects is encoded with the row's opcode and the fields it was given. -/
theorem encode_of_selectInstr (hf : formatOf b.b0 = some f) (hi : selectInstr b = some i) :
    encode i = clearFillers b f := by
  rcases readsRow_of_formatOf hf with ⟨-, hnone⟩ | ⟨j, hj, -, he⟩
  · simp [hnone] at hi
  · obtain rfl : j = i := by simpa [hj] using hi
    exact he

theorem fillerClear_true_iff_lt (x : Byte) : fillerClear true x = true ↔ x.toNat < 16 := by
  revert x
  decide

theorem fillerClear_false_iff_toNat (x : Byte) : fillerClear false x = true ↔ x.toNat = 0 := by
  revert x
  decide

/-- The filler check by number, for each format (R73 items 1 and 2). -/
theorem fillersClear_iff (hf : formatOf b.b0 = some f) : fillersClear f b = true ↔ ¬ FillerBitSet b := by
  have hb := mem_opcodes_of_formatOf hf
  cases f
  all_goals
    simp only [Format.opcodes, List.mem_cons, List.not_mem_nil, or_false, ← BitVec.toNat_inj,
      BitVec.toNat_ofNat] at hb
    simp only [fillersClear, Bool.and_eq_true, fillerClear_true_iff_lt, fillerClear_false_iff_toNat,
      FillerBitSet, Ne, ← BitVec.toNat_inj, BitVec.ofNat_eq_ofNat, BitVec.toNat_ofNat]
    omega

/-- A slot with a known opcode decodes to an instruction exactly when none of R73's items 1 to 6 holds. -/
theorem exists_instr_iff (hf : formatOf b.b0 = some f) :
    (∃ i, decode b = .instr i) ↔ ¬ FillerBitSet b ∧ ¬ FieldOutOfRange b := by
  simp only [decode_eq_instr_iff hf, fillersClear_iff hf, exists_and_left]
  refine and_congr_right fun _ => ?_
  rcases readsRow_of_formatOf hf with ⟨hout, hnone⟩ | ⟨i, hi, hw, -⟩
  · simp [hnone, hout]
  · simp [hi, hw]

/-- R73: the illegal operands are the patterns under a known opcode that the items 1 to 6 list. -/
theorem decode_eq_operand_iff_listed :
    decode b = .illegal .operand ↔ b.b0.toNat ≤ 0x0E ∧ (FillerBitSet b ∨ FieldOutOfRange b) := by
  rw [decode_eq_operand_iff]
  refine and_congr_right fun hb => ?_
  have known : formatOf b.b0 ≠ none := mt formatOf_eq_none_iff.mp (by omega)
  obtain ⟨f, hf⟩ := Option.ne_none_iff_exists'.mp known
  rw [exists_instr_iff hf, not_and_or, not_not, not_not]

end Sys2Proof

namespace Sys2Proof.Machine

/-- A step that fetches an illegal pattern enters the fault of its cause (R73, R92). -/
theorem step_of_illegal {s : State} {c : Illegal} (hs : s.CanFetch)
    (hd : decode (s.slotAt s.pc) = .illegal c) : step s = .next (s.raise (illegalCause c)) := by
  obtain ⟨hr, hw, ha, hp⟩ := (canFetch_iff s).mp hs
  refine step_of_beginStep_raises hr ?_
  simp [beginStep, hw, fetchDecode_inRange s ha hp, hd]

end Sys2Proof.Machine

namespace Sys2Proof.Proofs
open Sys2Proof.Machine

/-- Settles O1: an encoding passes the checks of its format and its row reads the fields back; and the row
that a slot selects encodes to the slot without its filler bits, which are clear where the slot decodes. -/
theorem decodeAndEncodeAreInverse : Obligations.DecodeAndEncodeAreInverse := by
  refine ⟨fun i hw => ?_, fun b i hd => ?_⟩
  · obtain ⟨f, hf, hc⟩ := encode_filler i
    exact (decode_eq_instr_iff hf).mpr ⟨hc, selectInstr_encode i, hw⟩
  · obtain ⟨f, hf⟩ := formatOf_of_decode hd
    obtain ⟨hc, hi, hw⟩ := (decode_eq_instr_iff hf).mp hd
    exact ⟨hw, (encode_of_selectInstr hf hi).trans (fillersClear_iff_clearFillers.mp hc)⟩

/-- Settles O2: an unknown opcode is the one way to ILLEGAL_OPCODE, and under a known one the filler check
and the row fail by number as R73 lists; fetch hands the cause to fault entry. -/
theorem illegalPatternsAreTheListedOnes : Obligations.IllegalPatternsAreTheListedOnes := by
  intro b
  refine ⟨decode_eq_opcode_iff, ?_, ?_⟩
  · rw [decode_eq_operand_iff_listed]
    simp only [FillerBitSet, FieldOutOfRange, or_assoc]
  · rintro s hs rfl
    exact ⟨step_of_illegal hs, step_of_illegal hs⟩

end Sys2Proof.Proofs
end

section
/-! PROOFS. The execution cycle and the control transfers (spec/40_loop_and_control.md R90 to R97): the
checks before an instruction in their order, how a run starts and ends, HALT and JMP. -/

namespace Sys2Proof

/-! The bytes of JMP (R63, R67). -/

theorem operandByte_eq_ofNat (x : Nibble) : operandByte x = .ofNat 8 x.toNat := by
  revert x
  decide

/-- The three nibbles of an address by number. -/
theorem encodeA_eq_ofNat (opc : Byte) (addr : Addr12) : encodeA opc addr =
    ⟨opc, .ofNat 8 (addr.toNat / 256), .ofNat 8 (addr.toNat / 16 % 16), .ofNat 8 (addr.toNat % 16)⟩ := by
  have htop : addr.toNat / 256 % 16 = addr.toNat / 256 := by
    have := addr.isLt
    omega
  simp [encodeA, operandByte_eq_ofNat, Nat.shiftRight_eq_div_pow, htop]

end Sys2Proof

namespace Sys2Proof.Machine

variable {s t u : State} {i : Instr} {c : FaultCause}

/-! The checks before an instruction's rule, in the order of R173. -/

/-- The watchdog lets the run go on (R91). -/
def State.WatchdogAllows (s : State) : Prop :=
  ∀ limit, s.cfg.watchdogLimit = some limit → s.ic < limit

theorem watchdogAllows_of_none (h : s.cfg.watchdogLimit = none) : s.WatchdogAllows := by
  simp [State.WatchdogAllows, h]

theorem State.WatchdogAllows.not_expired (h : s.WatchdogAllows) : ¬ s.watchdogExpired = true := by
  rw [watchdogExpired_iff]
  rintro ⟨limit, hl, hle⟩
  exact absurd (h limit hl) (not_lt.mpr hle)

theorem beginStep_of_watchdogAllows (h : s.WatchdogAllows) : beginStep s = fetchDecode s :=
  if_neg h.not_expired

theorem step_of_watchdog_reached (hr : s.rs = .running) {limit : Nat}
    (hl : s.cfg.watchdogLimit = some limit) (hle : limit ≤ s.ic) :
    step s = .next (s.faultEntry .watchdog) :=
  step_of_beginStep_raises hr (if_pos ((watchdogExpired_iff s).mpr ⟨limit, hl, hle⟩))

theorem step_of_misaligned (hr : s.rs = .running) (hw : s.WatchdogAllows) (ha : s.pc % 4 ≠ 0) :
    step s = .next (s.faultEntry .pcMisaligned) :=
  step_of_beginStep_raises hr ((beginStep_of_watchdogAllows hw).trans (if_pos ha))

theorem step_of_out_of_range (hr : s.rs = .running) (hw : s.WatchdogAllows) (ha : s.pc % 4 = 0)
    (hp : 4096 < s.pc + 4) : step s = .next (s.faultEntry .pcRange) := by
  have hfetch : fetchDecode s = .raises .pcRange := (if_neg (not_not.mpr ha)).trans (if_pos hp)
  exact step_of_beginStep_raises hr ((beginStep_of_watchdogAllows hw).trans hfetch)

/-! The end of a step whose instruction completed (R93). -/

theorem retire_of_running (h : s.rs = .running) : s.retire = { s with ic := s.ic + 1 } := by
  simp [State.retire, h]

/-- A step that leaves the core in a run is an instruction other than HALT that completed. -/
theorem step_stays_running (hr : s.rs = .running) (h : step s = .next t) (ht : t.rs = .running) :
    s.WatchdogAllows ∧ t.cfg = s.cfg ∧ t.ic = s.ic + 1 := by
  rcases step_cases h with ⟨hn, -⟩ | ⟨-, c, rfl⟩ | ⟨i, u, hx, -, hk, rfl⟩
  · exact absurd hr hn
  · cases ht
  · exact ⟨hx.1.watchdog, u.retire_cfg.trans hk.cfg, hk.retire_ic hr⟩

/-! What an instruction's rule passes between the core and the host. -/

/-- The causes an instruction's rule raises; the others belong to the checks before it (R91, R92).
ILLEGAL_OPERAND is among them for the terms no slot decodes to (assumption 9). -/
def FaultCause.ofRule : FaultCause → Bool
  | .pcRange | .pcMisaligned | .illegalOpcode | .watchdog => false
  | .illegalOperand | .divZero | .randZero | .paletteRange | .spriteRange => true

/-- The log entries an instruction's rule makes: no tick, and no fault of the checks before it. -/
def HostEvent.ofRule : HostEvent → Bool
  | .tick => false
  | .fault c _ => c.ofRule
  | .print _ | .clear _ | .setColor _ | .sprite .. | .key .. | .random .. | .done => true

/-- What a rule that goes from `s` to `u` has to do with the host: it takes no tick (R90), and what it adds
to the log is an entry of a rule. -/
structure State.HostEffect (s u : State) : Prop where
  ticks : u.host.ticks = s.host.ticks
  events : u.events = s.events ∨ ∃ e, e.ofRule = true ∧ u.events = s.events ++ [e]

theorem hostEffect_silent (ht : u.host.ticks = s.host.ticks) (he : u.events = s.events) :
    s.HostEffect u := ⟨ht, .inl he⟩

theorem hostEffect_logs {e : HostEvent} (hr : e.ofRule = true) (ht : u.host.ticks = s.host.ticks)
    (he : u.events = s.events ++ [e]) : s.HostEffect u := ⟨ht, .inr ⟨e, hr, he⟩⟩

theorem hostEffect_raise (hc : c.ofRule = true) : s.HostEffect (s.raise c) :=
  hostEffect_logs (e := .fault c s.pc) hc rfl rfl

/-- The outcome `o` of a rule that ran from `s` has the effect of a rule on the host. -/
def HasHostEffect (s : State) (o : Out) : Prop := ∀ u, o = .next u → s.HostEffect u

theorem hasHostEffect_next (h : s.HostEffect t) : HasHostEffect s (.next t) := by
  intro u hu
  injection hu with hu
  exact hu ▸ h

theorem hasHostEffect_guarded {p : Prop} [Decidable p] (hc : c.ofRule = true) (h : s.HostEffect t) :
    HasHostEffect s (.next (if p then s.raise c else t)) := by
  split
  · exact hasHostEffect_next (hostEffect_raise hc)
  · exact hasHostEffect_next h

theorem hasHostEffect_withReg {f : RegField} {body : RegId → Out} (h : ∀ d, HasHostEffect s (body d)) :
    HasHostEffect s (withReg f s body) := by
  rcases withReg_cases s f body with ⟨d, -, e⟩ | ⟨-, e⟩ <;> rw [e]
  · exact h d
  · exact hasHostEffect_next (hostEffect_raise rfl)

theorem hasHostEffect_withKey {f : KeyField} {body : Key → Out} (h : ∀ k, HasHostEffect s (body k)) :
    HasHostEffect s (withKey f s body) := by
  rcases withKey_cases s f body with ⟨k, -, e⟩ | ⟨-, e⟩ <;> rw [e]
  · exact h k
  · exact hasHostEffect_next (hostEffect_raise rfl)

theorem hasHostEffect_drawSprite (a : Nat) : HasHostEffect s (drawSprite a s) := by
  rcases drawSprite_cases s a with ⟨-, e⟩ | ⟨-, e⟩ <;> rw [e]
  · exact hasHostEffect_next (hostEffect_raise rfl)
  · exact hasHostEffect_next (hostEffect_logs (e := .sprite ..) rfl rfl rfl)

theorem hasHostEffect_regRegOp (op : Byte → Byte → Byte) (r q : RegField) :
    HasHostEffect s (regRegOp op r q s) :=
  hasHostEffect_withReg fun _ => hasHostEffect_withReg fun _ =>
    hasHostEffect_next (hostEffect_silent rfl rfl)

theorem hasHostEffect_divideOp (op : Byte → Byte → Byte) (r q : RegField) :
    HasHostEffect s (divideOp op r q s) :=
  hasHostEffect_withReg fun _ => hasHostEffect_withReg fun _ =>
    hasHostEffect_guarded rfl (hostEffect_silent rfl rfl)

theorem hasHostEffect_regLitOp (op : Byte → Byte → Byte) (r : RegField) (n : Byte) :
    HasHostEffect s (regLitOp op r n s) :=
  hasHostEffect_withReg fun _ => hasHostEffect_next (hostEffect_silent rfl rfl)

theorem hasHostEffect_skipOnRegs (cmp : Comparison) (r q : RegField) :
    HasHostEffect s (skipOnRegs cmp r q s) :=
  hasHostEffect_withReg fun _ => hasHostEffect_withReg fun _ =>
    hasHostEffect_next (hostEffect_silent rfl rfl)

theorem hasHostEffect_skipOnLit (cmp : Comparison) (r : RegField) (n : Byte) :
    HasHostEffect s (skipOnLit cmp r n s) :=
  hasHostEffect_withReg fun _ => hasHostEffect_next (hostEffect_silent rfl rfl)

/-- Every instruction's rule has the effect of a rule on the host. -/
theorem exec_hasHostEffect (i : Instr) (s : State) : HasHostEffect s (exec i s) := by
  cases i with
  | halt => exact hasHostEffect_next (hostEffect_logs (e := .done) rfl (by simp) (by simp))
  | jmp addr => exact hasHostEffect_next (hostEffect_silent rfl rfl)
  | print r =>
    exact hasHostEffect_withReg fun _ =>
      hasHostEffect_next (hostEffect_logs (e := .print _) rfl rfl rfl)
  | clear n => exact hasHostEffect_guarded rfl (hostEffect_logs (e := .clear n) rfl rfl rfl)
  | color n => exact hasHostEffect_guarded rfl (hostEffect_logs (e := .setColor n) rfl rfl rfl)
  | spra addr => exact hasHostEffect_drawSprite _
  | spri addr => exact hasHostEffect_drawSprite _
  | set r q => exact hasHostEffect_regRegOp (fun _ b => b) r q
  | add r q => exact hasHostEffect_regRegOp _ r q
  | sub r q => exact hasHostEffect_regRegOp _ r q
  | mul r q => exact hasHostEffect_regRegOp _ r q
  | div r q => exact hasHostEffect_divideOp _ r q
  | mod r q => exact hasHostEffect_divideOp _ r q
  | and r q => exact hasHostEffect_regRegOp _ r q
  | or r q => exact hasHostEffect_regRegOp _ r q
  | xor r q => exact hasHostEffect_regRegOp _ r q
  | seti r n => exact hasHostEffect_regLitOp (fun _ b => b) r n
  | addi r n => exact hasHostEffect_regLitOp _ r n
  | rand r n =>
    exact hasHostEffect_withReg fun _ =>
      hasHostEffect_guarded rfl (hostEffect_logs (e := .random ..) rfl rfl rfl)
  | ifeq r q => exact hasHostEffect_skipOnRegs .eq r q
  | ifne r q => exact hasHostEffect_skipOnRegs .ne r q
  | iflt r q => exact hasHostEffect_skipOnRegs .lt r q
  | ifle r q => exact hasHostEffect_skipOnRegs .le r q
  | ifgt r q => exact hasHostEffect_skipOnRegs .gt r q
  | ifge r q => exact hasHostEffect_skipOnRegs .ge r q
  | ifeqi r n => exact hasHostEffect_skipOnLit .eq r n
  | ifnei r n => exact hasHostEffect_skipOnLit .ne r n
  | key f =>
    exact hasHostEffect_withKey fun _ => hasHostEffect_next (hostEffect_logs (e := .key ..) rfl rfl rfl)

/-- A rule logs no fault of the checks before it. -/
theorem State.HostEffect.events_ne_fault (h : s.HostEffect u) (hc : c.ofRule = false) (a : Nat) :
    u.events ≠ s.events ++ [.fault c a] := by
  intro he
  rcases h.events with h | ⟨e, hr, h⟩
  · simp [h] at he
  · obtain rfl : e = .fault c a := by simpa [h] using he
    simp [HostEvent.ofRule, hc] at hr

/-- While a run is in progress no tick is taken (R90). -/
theorem step_running_ticks (hr : s.rs = .running) (h : step s = .next t) :
    t.host.ticks = s.host.ticks := by
  rcases step_cases h with ⟨hn, -⟩ | ⟨-, c, rfl⟩ | ⟨i, u, -, hu, -, rfl⟩
  · exact absurd hr hn
  · rfl
  · rw [u.retire_host, (exec_hasHostEffect i s u hu).ticks]

/-- Where the slot at the pc can be fetched, the step does not fault PC_RANGE (R92). -/
theorem step_canFetch_ne_pcRange (hs : s.CanFetch) (h : step s = .next t) :
    t.events ≠ s.events ++ [.fault .pcRange s.pc] := by
  cases hd : decode (s.slotAt s.pc) with
  | illegal c =>
    rw [step_of_illegal hs hd] at h
    injection h with h
    cases c <;> simp [← h, illegalCause]
  | instr i =>
    obtain ⟨u, hu⟩ := exec_next i s
    rw [step_of_exec_next ⟨hs, hd⟩ hu] at h
    injection h with h
    rw [← h, u.retire_events]
    exact (exec_hasHostEffect i s u hu).events_ne_fault rfl s.pc

/-! The host's chance to start a run (R90). -/

/-- The state in which a run starts: the host has sent its tick. -/
def State.started (s : State) : State :=
  { s.afterTickChance with pc := 0, ic := 0, rs := .running, events := s.events ++ [.tick] }

theorem step_of_faulted (hr : s.rs = .faulted) : step s = .next s.afterTickChance := by
  rw [step_of_not_running (by simp [hr])]
  rcases await_starts_or_waits s with ⟨hi, -⟩ | e
  · simp [hr] at hi
  · rw [e]

theorem step_idle_tick (hi : s.rs = .idle) (ht : s.tickComes = true) : step s = .next s.started := by
  rw [step_of_not_running (by simp [hi]), State.await, if_pos ht, tick_idle s.afterTickChance hi]
  rfl

theorem step_idle_no_tick (hi : s.rs = .idle) (ht : s.tickComes = false) :
    step s = .next s.afterTickChance := by
  rw [step_of_not_running (by simp [hi]), State.await, if_neg (by simp [ht])]

theorem tickComes_settled {b : Bool} {rest : List Bool} (h : s.host.ticks = b :: rest) :
    s.tickComes = b := by simp [State.tickComes, h]

theorem afterTickChance_settled {b : Bool} {rest : List Bool} (h : s.host.ticks = b :: rest) :
    s.afterTickChance =
      { s with host := ⟨rest, s.host.keys, s.host.randoms, s.host.asked + 1⟩ } := by
  simp [State.afterTickChance, h]

/-! A run under a watchdog (R91). -/

/-- By induction on the instructions the run may still complete: a step completes one of them or ends the
run, and with none left the watchdog ends it. -/
theorem leaves_running_within {limit : Nat} (n : Nat) (hr : s.rs = .running)
    (hl : s.cfg.watchdogLimit = some limit) (hn : limit ≤ s.ic + n) :
    ∃ k t, k ≤ n + 1 ∧ s.Reaches k t ∧ t.rs ≠ .running := by
  induction n generalizing s with
  | zero =>
    have hstep := step_of_watchdog_reached hr hl hn
    exact ⟨1, _, le_rfl, reaches_succ.mpr ⟨_, hstep, reaches_zero.mpr rfl⟩, nofun⟩
  | succ n ih =>
    obtain ⟨u, hu⟩ := step_running_next hr
    by_cases hur : u.rs = .running
    · obtain ⟨-, hcfg, hic⟩ := step_stays_running hr hu hur
      obtain ⟨k, t, hk, hreach, ht⟩ := ih hur (hcfg ▸ hl) (by omega)
      exact ⟨k + 1, t, by omega, reaches_succ.mpr ⟨u, hu, hreach⟩, ht⟩
    · exact ⟨1, u, by omega, reaches_succ.mpr ⟨u, hu, reaches_zero.mpr rfl⟩, hur⟩

/-! A jump to itself (R97). -/

/-- Without a watchdog the instruction a step executes does not depend on `IC`. -/
theorem State.Executes.withIc (hx : s.Executes i) (hw : s.cfg.watchdogLimit = none) (n : Nat) :
    ({ s with ic := n } : State).Executes i := by
  obtain ⟨⟨hrun, -, halign, hrange⟩, hdec⟩ := hx
  exact ⟨⟨hrun, watchdogAllows_of_none hw, halign, hrange⟩, hdec⟩

theorem step_jmp_self {addr : Addr12} (hx : s.Executes (.jmp addr)) (ha : addr.toNat = s.pc) :
    step s = .next { s with ic := s.ic + 1 } := by
  have hexec : exec (.jmp addr) s = .next { s with pc := addr.toNat } := rfl
  rw [ha] at hexec
  rw [step_of_exec_next hx hexec, retire_of_running hx.1.running]

/-! HALT (R96). -/

theorem countTick_none (h : s.cfg.tickReg = none) : s.countTick = s := by simp [State.countTick, h]

theorem countTick_some {q : RegId} (h : s.cfg.tickReg = some q) :
    s.countTick = s.writeReg q (s.regs[q] + 1#8) := by
  simp [State.countTick, State.readReg, h]

end Sys2Proof.Machine

namespace Sys2Proof.Proofs
open Sys2Proof.Machine

/-- Settles O5: each check fires only where those before it pass, and an illegal pattern of either cause is
what the slot decodes to. -/
theorem checksBeforeExecutionInOrder : Obligations.ChecksBeforeExecutionInOrder := by
  intro s hr
  refine ⟨fun _ => step_of_watchdog_reached hr, fun hw => ⟨step_of_misaligned hr hw,
    step_of_out_of_range hr hw, fun ha hp hb => ?_, fun ha hp hd => ?_⟩⟩
  · exact step_of_illegal ⟨hr, hw, ha, hp⟩ (decode_eq_opcode_iff.mpr hb)
  · exact step_of_illegal ⟨hr, hw, ha, hp⟩ hd

/-- Settles O6: from IDLE the host's chance starts a run or passes, as its answer says; from FAULTED it
passes; and no rule of a run takes a tick. -/
theorem tickStartsARunOnlyFromIdle : Obligations.TickStartsARunOnlyFromIdle := by
  refine fun s => ⟨fun hi => ⟨?_, fun rest h => ?_, fun rest h => ?_⟩, step_of_faulted,
    fun t => step_running_ticks⟩
  · cases ht : s.tickComes with
    | true => exact .inl (step_idle_tick hi ht)
    | false => exact .inr (step_idle_no_tick hi ht)
  · rw [step_idle_tick hi (tickComes_settled h), State.started, afterTickChance_settled h]
  · rw [step_idle_no_tick hi (tickComes_settled h), afterTickChance_settled h]

/-- Settles O13: a step of a run is fault entry or an instruction that completes, and of these only HALT
writes `RS`. -/
theorem aRunEndsOnlyByHaltOrFault : Obligations.ARunEndsOnlyByHaltOrFault := by
  intro s t hr h ht
  rcases step_cases h with ⟨hn, -⟩ | ⟨-, c, rfl⟩ | ⟨i, u, hx, -, hk, rfl⟩
  · exact absurd hr hn
  · exact .inr ⟨rfl, c, rfl, rfl⟩
  · rw [u.retire_rs] at ht
    by_cases hi : i = .halt
    · obtain ⟨hidle, hdone⟩ := hk.halted hi
      exact .inl ⟨hi ▸ hx, u.retire_rs.trans hidle, u.retire_events.trans hdone⟩
    · exact absurd ((hk.rs hi).trans hr) ht

/-- Settles O15, by induction on the instructions the watchdog leaves to the run. -/
theorem theWatchdogEndsEveryRun : Obligations.TheWatchdogEndsEveryRun :=
  fun s limit hr hl => leaves_running_within (limit - s.ic) hr hl (by omega)

/-- Settles O16, by induction on the steps: each jump leaves the next step the same jump. -/
theorem aJumpToItselfNeverEnds : Obligations.AJumpToItselfNeverEnds := by
  intro s addr hx ha hw k
  induction k generalizing s with
  | zero => exact reaches_zero.mpr rfl
  | succ k ih =>
    have hrest := ih { s with ic := s.ic + 1 } (hx.withIc hw _) ha hw
    rw [show s.ic + (k + 1) = s.ic + 1 + k by omega]
    exact reaches_succ.mpr ⟨_, step_jmp_self hx ha, hrest⟩

/-- Settles O23: the skip completes without a fault, and the aligned pc it leaves is past the last slot. -/
theorem aSkipPastMemoryFaultsAtTheNextFetch : Obligations.ASkipPastMemoryFaultsAtTheNextFetch := by
  intro s t i hx hi hw hpast h hpc
  have hr := hx.1.running
  have hrun : t.rs = .running := by
    rcases step_cases h with ⟨hn, -⟩ | ⟨-, c, rfl⟩ | ⟨j, u, hj, -, hk, rfl⟩
    · exact absurd hr hn
    · rw [s.raise_pc] at hpc
      omega
    · obtain rfl := executes_unique hx hj
      rw [u.retire_rs, hk.rs (ne_halt_of_isConditional hi), hr]
  obtain ⟨-, hcfg, -⟩ := step_stays_running hr h hrun
  have halign := hx.1.aligned
  exact ⟨hrun, step_of_out_of_range hrun (watchdogAllows_of_none (hcfg ▸ hw)) (by omega) (by omega)⟩

/-- Settles O4: the checks pass with the instruction the slot decodes to, and the end of the step is R93's. -/
theorem stepRunsTheDecodedInstruction : Obligations.StepRunsTheDecodedInstruction := by
  intro s i hx
  rw [step_of_executes hx]
  cases exec i s <;> rfl

/-- Settles O28: the automatic tick is the one part of HALT that depends on the parameters. -/
theorem haltEndsTheRun : Obligations.HaltEndsTheRun := by
  have hexec (s : State) : exec .halt s = .next (s.countTick.advance.endRun.emit .done) := rfl
  refine ⟨rfl, fun s => ⟨fun hn => ?_, fun q hq => ⟨s.regs[q] + 1#8, ?_, ?_⟩⟩⟩
  · rw [hexec, countTick_none hn]
    rfl
  · simp
  · rw [hexec, countTick_some hq]
    rfl

/-- Settles O29: the bytes are the encoding of the jump; its target is below 4096, so where it is aligned
its slot is in memory and the next step is past the range check. -/
theorem jmpSetsThePc : Obligations.JmpSetsThePc := by
  intro addr
  refine ⟨?_, fun _ => rfl, fun s hr hw hpc => ⟨fun ha => ?_, fun t h => ?_⟩⟩
  · rw [← encodeA_eq_ofNat]
    exact decodeAndEncodeAreInverse.1 (.jmp addr) rfl
  · exact step_of_misaligned hr hw (hpc ▸ ha)
  · by_cases ha : s.pc % 4 = 0
    · have := addr.isLt
      exact step_canFetch_ne_pcRange ⟨hr, hw, ha, by omega⟩ h
    · rw [step_of_misaligned hr hw ha] at h
      injection h with h
      simp [← h, State.faultEntry]

end Sys2Proof.Proofs
end

section
/-! PROOFS. The host-I/O instructions (spec/41_host_io.md R110 to R114): what each slot decodes to, and the
two sides of the palette check and of the sprite range check. -/

namespace Sys2Proof

/-! The bytes of the host-I/O instructions (R63, R66, R68). -/

theorem operandByte_regField (q : RegId) : operandByte (Machine.regField q) = .ofNat 8 q.val := by
  rw [operandByte_eq_ofNat, Machine.regField_toNat]

/-- The two nibbles of a literal by number. -/
theorem encodeL_eq_ofNat (opc n : Byte) :
    encodeL opc n = ⟨opc, 0#8, .ofNat 8 (n.toNat / 16), .ofNat 8 (n.toNat % 16)⟩ := by
  have htop : n.toNat / 16 % 16 = n.toNat / 16 := by
    have := n.isLt
    omega
  simp [encodeL, highNibble, lowNibble, operandByte_eq_ofNat, Nat.shiftRight_eq_div_pow, htop]

theorem decode_of_encode_eq {i : Instr} {b : Bytes4} (hw : i.wellFormed = true) (hb : encode i = b) :
    decode b = .instr i :=
  hb ▸ Proofs.decodeAndEncodeAreInverse.1 i hw

end Sys2Proof

namespace Sys2Proof.Machine

variable {s : State}

/-! The palette check (R111, R112). -/

theorem withPalette_of_lt {n : Byte} (h : n.toNat < s.cfg.paletteSize) (rest : State) :
    withPalette n s rest = .next rest := by
  rcases withPalette_cases s n rest with ⟨hle, -⟩ | ⟨-, hrest⟩
  · omega
  · exact hrest

theorem withPalette_of_le {n : Byte} (h : s.cfg.paletteSize ≤ n.toNat) (rest : State) :
    withPalette n s rest = .next (s.faultEntry .paletteRange) := by
  rcases withPalette_cases s n rest with ⟨-, hfault⟩ | ⟨hlt, -⟩
  · exact hfault
  · omega

/-! The sprite range check (R113, R114). -/

theorem drawSprite_of_le {a : Nat} (h : a ≤ 4092) : drawSprite a s =
    .next { s with
      pc := s.pc + 4
      events := s.events ++ [.sprite s.regs[0] s.regs[1] s.regs[11] (s.slotAt a)] } := by
  rcases drawSprite_cases s a with ⟨hlt, -⟩ | ⟨-, hdraw⟩
  · omega
  · exact hdraw

theorem drawSprite_of_lt {a : Nat} (h : 4092 < a) :
    drawSprite a s = .next (s.faultEntry .spriteRange) := by
  rcases drawSprite_cases s a with ⟨-, hfault⟩ | ⟨hle, -⟩
  · exact hfault
  · omega

/-- Under the default map an immediate id is its own address (R6, R114). -/
theorem execSpri_of_default (h : s.cfg.spriteImm = []) (i : Addr12) : execSpri i s = execSpra i s := by
  rw [execSpri, execSpra, h, spriteImmMap_nil]

end Sys2Proof.Machine

namespace Sys2Proof.Proofs
open Sys2Proof.Machine

/-- Settles O30: the register field names its register, so the rule has no check to fail. -/
theorem printEmitsTheRegister : Obligations.PrintEmitsTheRegister := by
  refine fun r => ⟨decode_of_encode_eq ((regFieldOk_iff _).mpr ⟨r, rfl⟩) ?_, fun s => ?_⟩
  · rw [encode, operandByte_regField]
  · exact withReg_regField s r _

/-- Settles O31, on the two sides of the palette check. -/
theorem colorSetsTheDrawColor : Obligations.ColorSetsTheDrawColor := fun n =>
  ⟨decode_of_encode_eq (i := .color n) rfl (encodeL_eq_ofNat _ n),
    fun _ => ⟨fun h => withPalette_of_lt h _, fun h => withPalette_of_le h _⟩⟩

/-- Settles O32, on the two sides of the palette check. -/
theorem clearEmitsThePaletteIndex : Obligations.ClearEmitsThePaletteIndex := fun n =>
  ⟨decode_of_encode_eq (i := .clear n) rfl (encodeL_eq_ofNat _ n),
    fun _ => ⟨fun h => withPalette_of_lt h _, fun h => withPalette_of_le h _⟩⟩

/-- Settles O33: alignment plays no part, only the range check at the address. -/
theorem spraDrawsTheBytesAtItsAddress : Obligations.SpraDrawsTheBytesAtItsAddress := fun addr =>
  ⟨decode_of_encode_eq (i := .spra addr) rfl (encodeA_eq_ofNat _ addr),
    fun _ => ⟨drawSprite_of_le, drawSprite_of_lt⟩⟩

/-- Settles O34: SPRA's rule at the mapped address. -/
theorem spriDrawsTheBytesItsIdMapsTo : Obligations.SpriDrawsTheBytesItsIdMapsTo := fun i =>
  ⟨decode_of_encode_eq (i := .spri i) rfl (encodeA_eq_ofNat _ i),
    fun _ => ⟨drawSprite_of_le, drawSprite_of_lt, fun h => execSpri_of_default h i⟩⟩

end Sys2Proof.Proofs
end

section
/-! PROOFS. The register operations (spec/42_register_ops.md R131 to R143): what each slot decodes to, the
next state of each shared shape, and the arithmetic of the byte that is written. -/

namespace Sys2Proof

/-! The bytes of the register operations (R63, R66, R68). -/

theorem regFieldOk_regField (q : RegId) : regFieldOk (Machine.regField q) = true :=
  (Machine.regFieldOk_iff _).mpr ⟨q, rfl⟩

theorem decode_regReg {i : Instr} {opc : Byte} {g : Nibble} {r q : RegId}
    (hw : i.wellFormed = (regFieldOk (Machine.regField r) && regFieldOk (Machine.regField q)))
    (hi : encode i = encodeRFR opc g (Machine.regField r) (Machine.regField q)) :
    decode ⟨opc, .ofNat 8 r.val, operandByte g, .ofNat 8 q.val⟩ = .instr i := by
  refine decode_of_encode_eq ?_ ?_
  · rw [hw, regFieldOk_regField, regFieldOk_regField, Bool.and_self]
  · rw [hi, encodeRFR, operandByte_regField, operandByte_regField]

/-- RL is format L with a register in its unused byte. -/
theorem encodeRL_eq_ofNat (opc : Byte) (r : RegId) (n : Byte) : encodeRL opc (Machine.regField r) n =
    ⟨opc, .ofNat 8 r.val, .ofNat 8 (n.toNat / 16), .ofNat 8 (n.toNat % 16)⟩ := by
  have hlit := encodeL_eq_ofNat opc n
  simp only [encodeL, Bytes4.mk.injEq, true_and] at hlit
  obtain ⟨hhigh, hlow⟩ := hlit
  rw [encodeRL, operandByte_regField, hhigh, hlow]

theorem decode_regLit {i : Instr} {opc n : Byte} {r : RegId}
    (hw : i.wellFormed = regFieldOk (Machine.regField r))
    (hi : encode i = encodeRL opc (Machine.regField r) n) :
    decode ⟨opc, .ofNat 8 r.val, .ofNat 8 (n.toNat / 16), .ofNat 8 (n.toNat % 16)⟩ = .instr i :=
  decode_of_encode_eq (hw.trans (regFieldOk_regField r)) (hi.trans (encodeRL_eq_ofNat opc r n))

end Sys2Proof

namespace Sys2Proof.Machine

variable {s t : State} {r q : RegId} {n : Byte} {op : Byte → Byte → Byte}

/-! The whole next state of each shape (R130). -/

theorem regRegOp_next (op : Byte → Byte → Byte) (r q : RegId) (s : State) :
    regRegOp op (regField r) (regField q) s =
      .next { s with regs := s.regs.set r (op s.regs[r] s.regs[q]), pc := s.pc + 4 } :=
  regRegOp_eq s op r q

theorem regLitOp_next (op : Byte → Byte → Byte) (r : RegId) (n : Byte) (s : State) :
    regLitOp op (regField r) n s =
      .next { s with regs := s.regs.set r (op s.regs[r] n), pc := s.pc + 4 } :=
  regLitOp_eq s op r n

theorem divideOp_of_ne_zero (h : s.readReg q ≠ 0#8) : divideOp op (regField r) (regField q) s =
    .next { s with regs := s.regs.set r (op s.regs[r] s.regs[q]), pc := s.pc + 4 } := by
  rw [divideOp_eq, if_neg h]
  rfl

theorem divideOp_of_zero (h : s.readReg q = 0#8) :
    divideOp op (regField r) (regField q) s = .next (s.faultEntry .divZero) := by
  rw [divideOp_eq, if_pos h]
  rfl

theorem divideOp_result (hq : s.readReg q ≠ 0#8)
    (h : divideOp op (regField r) (regField q) s = .next t) : t.regs[r] = op s.regs[r] s.regs[q] := by
  rw [divideOp_of_ne_zero hq] at h
  cases h
  exact Vector.getElem_set_self r.isLt

theorem execRand_of_ne_zero (h : n ≠ 0#8) : execRand (regField r) n s =
    .next { s with
      regs := s.regs.set r (s.randomAnswer n)
      pc := s.pc + 4
      events := s.events ++ [.random n (s.randomAnswer n)]
      host := ⟨s.host.ticks, s.host.keys, s.host.randoms.tail, s.host.asked + 1⟩ } := by
  rw [execRand, withReg_regField, if_neg h]
  rfl

theorem execRand_of_zero (h : n = 0#8) :
    execRand (regField r) n s = .next (s.faultEntry .randZero) := by
  rw [execRand, withReg_regField, if_pos h]
  rfl

/-! The byte SUB writes, as a number (R8, R133). -/

/-- The byte difference is the remainder of the integer one, also where that is negative. -/
theorem toNat_sub_eq_emod (a b : Byte) : ((a - b).toNat : Int) = ((a.toNat : Int) - b.toNat) % 256 := by
  have := a.isLt
  have := b.isLt
  rw [BitVec.toNat_sub]
  omega

end Sys2Proof.Machine

namespace Sys2Proof.Proofs
open Sys2Proof.Machine

/-- Settles O56: DIV and MOD read the same operands, so their results are the two parts of one division. -/
theorem quotientAndRemainderRecompose : Obligations.QuotientAndRemainderRecompose := by
  intro r q s t u hq ht hu
  have hdiv : t.regs[r] = s.regs[r] / s.regs[q] := divideOp_result hq ht
  have hmod : u.regs[r] = s.regs[r] % s.regs[q] := divideOp_result hq hu
  have hpos : 0 < s.regs[q].toNat := Nat.pos_of_ne_zero fun h => hq (BitVec.eq_of_toNat_eq h)
  rw [hdiv, hmod, BitVec.toNat_udiv, BitVec.toNat_umod]
  exact ⟨Nat.div_add_mod' _ _, Nat.mod_lt _ hpos⟩

/-- Settles O35: the rule has no check, whichever registers are named. -/
theorem setCopiesARegister : Obligations.SetCopiesARegister := fun r q =>
  ⟨decode_regReg (g := 0#4) rfl rfl, fun s => ⟨_, rfl, regRegOp_next (fun _ b => b) r q s⟩⟩

/-- Settles O36. -/
theorem addWritesTheSumMod256 : Obligations.AddWritesTheSumMod256 := fun r q =>
  ⟨decode_regReg (g := 1#4) rfl rfl, fun s => ⟨_, BitVec.toNat_add _ _, regRegOp_next _ r q s⟩⟩

/-- Settles O37: byte subtraction is the integer difference reduced to the non-negative remainder. -/
theorem subWritesTheDifferenceMod256 : Obligations.SubWritesTheDifferenceMod256 := fun r q =>
  ⟨decode_regReg (g := 2#4) rfl rfl, fun s => ⟨_, toNat_sub_eq_emod _ _, regRegOp_next _ r q s⟩⟩

/-- Settles O38. -/
theorem mulWritesTheLowByteOfTheProduct : Obligations.MulWritesTheLowByteOfTheProduct := fun r q =>
  ⟨decode_regReg (g := 3#4) rfl rfl, fun s => ⟨_, BitVec.toNat_mul _ _, regRegOp_next _ r q s⟩⟩

/-- Settles O39, on the two sides of the zero check. -/
theorem divWritesTheQuotient : Obligations.DivWritesTheQuotient := fun _ _ =>
  ⟨decode_regReg (g := 4#4) rfl rfl,
    fun _ => ⟨fun h => ⟨_, BitVec.toNat_udiv, divideOp_of_ne_zero h⟩, divideOp_of_zero⟩⟩

/-- Settles O40, on the two sides of the zero check. -/
theorem modWritesTheRemainder : Obligations.ModWritesTheRemainder := fun _ _ =>
  ⟨decode_regReg (g := 5#4) rfl rfl,
    fun _ => ⟨fun h => ⟨_, BitVec.toNat_umod.trans (Nat.mod_def _ _), divideOp_of_ne_zero h⟩, divideOp_of_zero⟩⟩

/-- Settles O41. -/
theorem andWritesTheBitwiseAnd : Obligations.AndWritesTheBitwiseAnd := fun r q =>
  ⟨decode_regReg (g := 6#4) rfl rfl,
    fun s => ⟨_, fun _ _ => BitVec.getLsbD_and, regRegOp_next _ r q s⟩⟩

/-- Settles O42. -/
theorem orWritesTheBitwiseOr : Obligations.OrWritesTheBitwiseOr := fun r q =>
  ⟨decode_regReg (g := 7#4) rfl rfl,
    fun s => ⟨_, fun _ _ => BitVec.getLsbD_or, regRegOp_next _ r q s⟩⟩

/-- Settles O43. -/
theorem xorWritesTheBitwiseXor : Obligations.XorWritesTheBitwiseXor := fun r q =>
  ⟨decode_regReg (g := 8#4) rfl rfl,
    fun s => ⟨_, fun _ _ => BitVec.getLsbD_xor, regRegOp_next _ r q s⟩⟩

/-- Settles O44: the rule has no check, register 11 among its destinations. -/
theorem setiWritesTheLiteral : Obligations.SetiWritesTheLiteral := fun r n =>
  ⟨decode_regLit rfl rfl, fun s => ⟨_, rfl, regLitOp_next (fun _ b => b) r n s⟩⟩

/-- Settles O45. -/
theorem addiWritesTheSumMod256 : Obligations.AddiWritesTheSumMod256 := fun r n =>
  ⟨decode_regLit rfl rfl, fun s => ⟨_, BitVec.toNat_add _ _, regLitOp_next _ r n s⟩⟩

/-- Settles O46, on the two sides of the bound's check: the value is the host's answer, of which the bound
and the settled value are known. -/
theorem randDrawsBelowItsBound : Obligations.RandDrawsBelowItsBound := by
  refine fun r n => ⟨decode_regLit rfl rfl, fun s => ⟨fun hn => ?_, execRand_of_zero⟩⟩
  exact ⟨s.randomAnswer n, randomAnswer_lt s hn, execRand_of_ne_zero hn,
    fun _ _ hlist hlt => randomAnswer_settled s hlist hlt⟩

end Sys2Proof.Proofs
end

section
/-! PROOFS. The conditional skip instructions (spec/43_conditionals.md R150 to R161): each condition as a
relation of the values compared, the whole next state of a guard, and two guards in a row. -/

namespace Sys2Proof.Machine

variable {s : State} {c : Comparison} {r q : RegId} {n : Byte}

/-! The conditions of R70 as relations. -/

theorem holds_eq_iff (a b : Byte) : holds .eq a b = true ↔ a = b := by
  simp [holds, BitVec.toNat_inj]

theorem holds_ne_iff (a b : Byte) : holds .ne a b = true ↔ a ≠ b := by
  simp [holds, BitVec.toNat_inj]

theorem holds_lt_iff (a b : Byte) : holds .lt a b = true ↔ a.toNat < b.toNat := decide_eq_true_iff

theorem holds_le_iff (a b : Byte) : holds .le a b = true ↔ a.toNat ≤ b.toNat := decide_eq_true_iff

theorem holds_gt_iff (a b : Byte) : holds .gt a b = true ↔ a.toNat > b.toNat := decide_eq_true_iff

theorem holds_ge_iff (a b : Byte) : holds .ge a b = true ↔ a.toNat ≥ b.toNat := decide_eq_true_iff

/-! The whole next state of a guard whose condition says `p` (R150). -/

variable {p : Prop} [Decidable p]

theorem skipUnless_of_iff {cond : Bool} (h : cond = true ↔ p) :
    s.skipUnless cond = { s with pc := if p then s.pc + 4 else s.pc + 8 } := by
  simp only [State.skipUnless, h]
  rfl

theorem skipOnRegs_of_iff (h : holds c s.regs[r] s.regs[q] = true ↔ p) :
    skipOnRegs c (regField r) (regField q) s =
      .next { s with pc := if p then s.pc + 4 else s.pc + 8 } := by
  rw [skipOnRegs_eq]
  exact congrArg _ (skipUnless_of_iff h)

theorem skipOnLit_of_iff (h : holds c s.regs[r] n = true ↔ p) :
    skipOnLit c (regField r) n s = .next { s with pc := if p then s.pc + 4 else s.pc + 8 } := by
  rw [skipOnLit_eq]
  exact congrArg _ (skipUnless_of_iff h)

/-- KEY asks once and skips by the answer it got (R160). -/
theorem execKey_next (k : Key) (s : State) : execKey (keyField k) s =
    .next { s with
      pc := if s.keyAnswer k then s.pc + 4 else s.pc + 8
      events := s.events ++ [.key k (s.keyAnswer k)]
      host := ⟨s.host.ticks, s.host.keys.tail, s.host.randoms, s.host.asked + 1⟩ } := by
  rw [execKey, withKey_keyField]
  rfl

/-! One guard of a run, as a step. -/

theorem step_ifeqi (hx : s.Executes (.ifeqi (regField r) n)) : step s =
    .next { s with pc := if s.regs[r] = n then s.pc + 4 else s.pc + 8, ic := s.ic + 1 } := by
  have hexec : exec (.ifeqi (regField r) n) s =
      .next { s with pc := if s.regs[r] = n then s.pc + 4 else s.pc + 8 } :=
    skipOnLit_of_iff (holds_eq_iff _ n)
  rw [step_of_exec_next hx hexec]
  exact congrArg _ (retire_of_running hx.1.running)

end Sys2Proof.Machine

namespace Sys2Proof.Proofs
open Sys2Proof.Machine

/-- Settles O24: the first guard leaves registers, image and parameters, so where it does not skip, the
second one runs and compares the register as it was. -/
theorem aGuardOfAGuardIsNoConjunction : Obligations.AGuardOfAGuardIsNoConjunction := by
  intro s r q m n hr hw ha hp hfirst hsecond
  have hstep := step_ifeqi ⟨⟨hr, watchdogAllows_of_none hw, ha, by omega⟩, hfirst⟩
  refine ⟨fun hne => ⟨_, hstep, if_neg hne⟩, fun heq => ?_⟩
  rw [if_pos heq] at hstep
  have hsecond_executes :
      { s with pc := s.pc + 4, ic := s.ic + 1 }.Executes (.ifeqi (regField q) n) :=
    ⟨⟨hr, watchdogAllows_of_none hw, show (s.pc + 4) % 4 = 0 by omega,
      show s.pc + 4 + 4 ≤ 4096 by omega⟩, hsecond⟩
  exact ⟨_, _, hstep, rfl, step_ifeqi hsecond_executes, rfl⟩

/-- Settles O47: a byte is its unsigned value, so the comparison of values is equality of bytes. -/
theorem ifeqSkipsUnlessEqual : Obligations.IfeqSkipsUnlessEqual := fun _ _ =>
  ⟨decode_regReg (g := 0#4) rfl rfl, fun _ => skipOnRegs_of_iff (holds_eq_iff _ _)⟩

/-- Settles O48: as for IFEQ, with the condition negated. -/
theorem ifneSkipsUnlessDifferent : Obligations.IfneSkipsUnlessDifferent := fun _ _ =>
  ⟨decode_regReg (g := 1#4) rfl rfl, fun _ => skipOnRegs_of_iff (holds_ne_iff _ _)⟩

/-- Settles O49. -/
theorem ifltSkipsUnlessLess : Obligations.IfltSkipsUnlessLess := fun _ _ =>
  ⟨decode_regReg (g := 2#4) rfl rfl, fun _ => skipOnRegs_of_iff (holds_lt_iff _ _)⟩

/-- Settles O50. -/
theorem ifleSkipsUnlessLessOrEqual : Obligations.IfleSkipsUnlessLessOrEqual := fun _ _ =>
  ⟨decode_regReg (g := 3#4) rfl rfl, fun _ => skipOnRegs_of_iff (holds_le_iff _ _)⟩

/-- Settles O51. -/
theorem ifgtSkipsUnlessGreater : Obligations.IfgtSkipsUnlessGreater := fun _ _ =>
  ⟨decode_regReg (g := 4#4) rfl rfl, fun _ => skipOnRegs_of_iff (holds_gt_iff _ _)⟩

/-- Settles O52. -/
theorem ifgeSkipsUnlessGreaterOrEqual : Obligations.IfgeSkipsUnlessGreaterOrEqual := fun _ _ =>
  ⟨decode_regReg (g := 5#4) rfl rfl, fun _ => skipOnRegs_of_iff (holds_ge_iff _ _)⟩

/-- Settles O53: IFEQ's comparison, with a literal. -/
theorem ifeqiSkipsUnlessEqualToTheLiteral : Obligations.IfeqiSkipsUnlessEqualToTheLiteral := fun _ n =>
  ⟨decode_regLit rfl rfl, fun _ => skipOnLit_of_iff (holds_eq_iff _ n)⟩

/-- Settles O54: IFNE's comparison, with a literal. -/
theorem ifneiSkipsUnlessDifferentFromTheLiteral :
    Obligations.IfneiSkipsUnlessDifferentFromTheLiteral := fun _ n =>
  ⟨decode_regLit rfl rfl, fun _ => skipOnLit_of_iff (holds_ne_iff _ n)⟩

/-- Settles O55: the answer is the model's, which is the settled one where there is one. -/
theorem keySkipsUnlessTheKeyIsDown : Obligations.KeySkipsUnlessTheKeyIsDown := by
  refine fun k => ⟨?_, fun s => ⟨s.keyAnswer k, execKey_next k s, fun _ _ h => keyAnswer_settled s h⟩⟩
  have hbytes : encode (.key (keyField k)) = ⟨0x0E#8, operandByte (keyField k), 0#8, 0#8⟩ := rfl
  refine decode_of_encode_eq ((keyFieldOk_iff _).mpr ⟨k, rfl⟩) (hbytes.trans ?_)
  cases k <;> rfl

end Sys2Proof.Proofs
end

section
/-! PROOFS. Faults and the host interface (spec/60_exceptions.md R170 to R187): fault entry is precise and
final, a step makes at most one request, and but for KEY and RAND no step sees what the host will answer. -/

namespace Sys2Proof.Machine

variable {s t : State} {i : Instr}

/-! FAULTED is final (R177). -/

/-- By induction on the steps: each is a chance of the host that passes, and leaves the core in FAULTED. -/
theorem faulted_reaches_sameCore (k : Nat) (hr : s.rs = .faulted) :
    ∃ t, s.Reaches k t ∧ s.SameCore t := by
  induction k generalizing s with
  | zero => exact ⟨s, reaches_zero.mpr rfl, rfl⟩
  | succ k ih =>
    obtain ⟨t, hreach, hsame⟩ := ih (s := s.afterTickChance) hr
    exact ⟨t, reaches_succ.mpr ⟨_, step_of_faulted hr, hreach⟩, hsame⟩

/-! One request at most (R186 item 1). -/

/-- The one entry the host's chance between runs can log is the tick that starts a run. -/
theorem await_events (s : State) : s.await.events = s.events ∨ ∃ e, s.await.events = s.events ++ [e] := by
  rcases await_starts_or_waits s with ⟨-, e⟩ | e <;> rw [e]
  · exact .inr ⟨.tick, rfl⟩
  · exact .inl rfl

/-! The rules that ask the host nothing. -/

/-- The state with another host's side: other answers, or another count of questions. -/
def State.withHost (s : State) (h : HostSide) : State := { s with host := h }

theorem sameCore_iff_withHost : s.SameCore t ↔ s.withHost t.host = t := Iff.rfl

theorem withHost_host (s : State) (h : HostSide) : (s.withHost h).host = h := rfl

theorem withHost_self (s : State) : s.withHost s.host = s := rfl

theorem ite_withHost {p : Prop} [Decidable p] (s t : State) (h : HostSide) :
    (if p then s.withHost h else t.withHost h) = (if p then s else t).withHost h :=
  (apply_ite (·.withHost h) p s t).symm

theorem withHost_countTick (s : State) (h : HostSide) :
    (s.withHost h).countTick = s.countTick.withHost h := by
  unfold State.countTick State.withHost
  dsimp only
  split <;> rfl

theorem withHost_retire (s : State) (h : HostSide) : (s.withHost h).retire = s.retire.withHost h :=
  ite_withHost s { s with ic := s.ic + 1 } h

/-- The rule neither sees nor changes the host's side: with another one it does the same, and keeps it. -/
def AsksNothing (rule : State → Out) : Prop :=
  ∀ (s u : State) (h : HostSide), rule s = .next u → rule (s.withHost h) = .next (u.withHost h)

theorem asksNothing_next {f : State → State} (hf : ∀ s h, f (s.withHost h) = (f s).withHost h) :
    AsksNothing fun s => .next (f s) := by
  intro s u h hu
  injection hu with hu
  exact congrArg _ ((hf s h).trans (congrArg (·.withHost h) hu))

/-- Fault entry asks the host nothing, so a check in front of a rule asks nothing either. -/
theorem asksNothing_guarded {p : State → Prop} [∀ s, Decidable (p s)] {c : FaultCause}
    {f : State → State} (hp : ∀ s h, p (s.withHost h) ↔ p s)
    (hf : ∀ s h, f (s.withHost h) = (f s).withHost h) :
    AsksNothing fun s => .next (if p s then s.raise c else f s) := by
  refine asksNothing_next fun s h => ?_
  simp only [hp, hf]
  exact ite_withHost (s.raise c) (f s) h

theorem asksNothing_withReg {f : RegField} {body : RegId → State → Out}
    (h : ∀ d, AsksNothing (body d)) : AsksNothing fun s => withReg f s fun d => body d s := by
  unfold withReg
  cases regOf f with
  | some d => exact h d
  | none => exact asksNothing_next fun _ _ => rfl

theorem asksNothing_withPalette {n : Byte} {f : State → State}
    (hf : ∀ s h, f (s.withHost h) = (f s).withHost h) : AsksNothing fun s => withPalette n s (f s) :=
  asksNothing_guarded (fun _ _ => Iff.rfl) hf

theorem asksNothing_drawSprite (a : Nat) : AsksNothing (drawSprite a) := by
  by_cases ha : a ≤ 4092
  · rw [show drawSprite a = _ from funext fun _ => drawSprite_of_le ha]
    exact asksNothing_next fun _ _ => rfl
  · rw [show drawSprite a = _ from funext fun _ => drawSprite_of_lt (not_le.mp ha)]
    exact asksNothing_next fun _ _ => rfl

/-- R185: KEY and RAND are the only instructions with a query. -/
theorem asksNothing_exec (hkey : ∀ k, i ≠ .key k) (hrand : ∀ r n, i ≠ .rand r n) :
    AsksNothing (exec i) := by
  cases i with
  | halt =>
    refine asksNothing_next fun s h => ?_
    rw [withHost_countTick]
    rfl
  | jmp addr => exact asksNothing_next fun _ _ => rfl
  | clear n | color n => exact asksNothing_withPalette fun _ _ => rfl
  | spra addr => exact asksNothing_drawSprite _
  | spri addr => exact fun s => asksNothing_drawSprite (spriteImmMap s.cfg.spriteImm addr).toNat s
  | set r q | add r q | sub r q | mul r q | and r q | or r q | xor r q
  | ifeq r q | ifne r q | iflt r q | ifle r q | ifgt r q | ifge r q =>
    exact asksNothing_withReg fun _ => asksNothing_withReg fun _ => asksNothing_next fun _ _ => rfl
  | div r q | mod r q =>
    exact asksNothing_withReg fun _ => asksNothing_withReg fun _ =>
      asksNothing_guarded (fun _ _ => Iff.rfl) fun _ _ => rfl
  | print r | seti r n | addi r n | ifeqi r n | ifnei r n =>
    exact asksNothing_withReg fun _ => asksNothing_next fun _ _ => rfl
  | rand r n => exact absurd rfl (hrand r n)
  | key f => exact absurd rfl (hkey f)

/-! A step without a query. -/

/-- The checks before the instruction's rule do not see the host's side (R91, R92). -/
theorem beginStep_withHost (s : State) (h : HostSide) : beginStep (s.withHost h) = beginStep s := rfl

theorem State.Executes.withHost (hx : s.Executes i) (h : HostSide) : (s.withHost h).Executes i :=
  executes_of_beginStep _ hx.1.running (beginStep_of_executes s hx)

/-- A step of a run that executes neither KEY nor RAND does the same with any host, and keeps its side. -/
theorem step_withHost (hr : s.rs = .running) (hkey : ∀ k, ¬ s.Executes (.key k))
    (hrand : ∀ r n, ¬ s.Executes (.rand r n)) (hst : step s = .next t) (h : HostSide) :
    step (s.withHost h) = .next (t.withHost h) := by
  rcases beginStep_cases s with ⟨c, hc⟩ | ⟨i, hi, -⟩
  · rw [step_of_beginStep_raises hr hc] at hst
    injection hst with hst
    subst hst
    exact step_of_beginStep_raises hr ((beginStep_withHost s h).trans hc)
  · have hx := executes_of_beginStep s hr hi
    have hasks : AsksNothing (exec i) :=
      asksNothing_exec (fun k e => hkey k (e ▸ hx)) (fun r n e => hrand r n (e ▸ hx))
    obtain ⟨u, hu⟩ := exec_next i s
    rw [step_of_exec_next hx hu] at hst
    injection hst with hst
    subst hst
    rw [step_of_exec_next (hx.withHost h) (hasks s u h hu), withHost_retire]

/-- A step that does the same with any host's side and keeps it does so with its own: it takes nothing. -/
theorem step_keeps_host (hr : s.rs = .running) (hkey : ∀ k, ¬ s.Executes (.key k))
    (hrand : ∀ r n, ¬ s.Executes (.rand r n)) (hst : step s = .next t) : t.host = s.host := by
  have hown := step_withHost hr hkey hrand hst s.host
  rw [withHost_self, hst] at hown
  injection hown with hown
  rw [hown, withHost_host]

end Sys2Proof.Machine

namespace Sys2Proof.Proofs
open Sys2Proof.Machine

/-- Settles O7, by induction on the steps; power-on reset writes `RS` and `FR`. -/
theorem faultedIsPermanentUntilPowerOnReset : Obligations.FaultedIsPermanentUntilPowerOnReset := by
  refine fun s hr => ⟨fun k => ?_, rfl, rfl⟩
  obtain ⟨t, hreach, hsame⟩ := faulted_reaches_sameCore k hr
  exact ⟨t, hreach, hsame.symm⟩

/-- Settles O9: an instruction that completes leaves FAULTED alone, so the step is fault entry. -/
theorem faultsArePrecise : Obligations.FaultsArePrecise := by
  intro s t hr h hf
  rcases step_cases h with ⟨hn, -⟩ | ⟨-, c, rfl⟩ | ⟨i, u, -, -, hk, rfl⟩
  · exact absurd hr hn
  · exact ⟨c, rfl⟩
  · rw [u.retire_rs] at hf
    exact absurd hf (hk.rs_ne_faulted hr)

/-- Settles O12: the host's chance logs a tick or nothing, fault entry logs the fault, and a rule that
completes makes one request at most. -/
theorem atMostOneRequestPerStep : Obligations.AtMostOneRequestPerStep := by
  intro s t h
  rcases step_cases h with ⟨-, rfl⟩ | ⟨-, c, rfl⟩ | ⟨i, u, -, -, hk, rfl⟩
  · exact await_events s
  · exact .inr ⟨.fault c s.pc, rfl⟩
  · rw [u.retire_events]
    exact hk.events

/-- Settles O21: the second state is the first with another host's side, and so is its next state. -/
theorem hostAnswersArriveOnlyByQueries : Obligations.HostAnswersArriveOnlyByQueries := by
  intro s₁ s₂ t₁ hr hsame hkey hrand h
  have hsecond : step s₂ = .next (t₁.withHost s₂.host) := by
    rw [← step_withHost hr hkey hrand h, sameCore_iff_withHost.mp hsame]
  exact ⟨_, hsecond, rfl, step_keeps_host hr hkey hrand h, rfl⟩

end Sys2Proof.Proofs
end

section
/-! PROOFS. The model's own choices (assumptions 8 and 9) and the slots of spec/95_test_vectors.md: a placed
slot passes every check before its instruction's rule, and a field that names nothing faults in the rule. -/

namespace Sys2Proof.Machine

variable {s : State}

/-! The slot at which the next step fetches (assumption 8). -/

/-- It is the pc only where the pc passes the checks of R92, and 0 passes them too. -/
theorem fetchSlot_isSlot (s : State) : s.fetchSlot % 4 = 0 ∧ s.fetchSlot + 4 ≤ 4096 := by
  unfold State.fetchSlot
  split_ifs with h
  · exact h.2
  · decide

theorem slotAt_withFetchSlot (hm : s.mem.wf = true) (b : Bytes4) :
    (s.withFetchSlot b).slotAt s.fetchSlot = b := by
  obtain ⟨-, hrange⟩ := fetchSlot_isSlot s
  exact Option.some.inj ((memRead4_eq_some hrange).symm.trans (memRead4_placeSlot hm hrange b))

/-- Placing a slot sets an expired `IC` back to 0, which is below every other limit (R91). -/
theorem watchdogExpired_withFetchSlot (hw : s.cfg.watchdogLimit ≠ some 0) (b : Bytes4) :
    (s.withFetchSlot b).watchdogExpired = false := by
  by_cases he : s.watchdogExpired = true
  · rw [← Bool.not_eq_true, watchdogExpired_iff]
    rintro ⟨limit, hlimit, hle⟩
    have hic : (s.withFetchSlot b).ic = 0 := if_pos he
    obtain rfl : limit = 0 := by omega
    exact hw hlimit
  · have hic : (s.withFetchSlot b).ic = s.ic := if_neg he
    rw [State.watchdogExpired, hic]
    exact eq_false_of_ne_true he

theorem canFetch_withFetchSlot (hw : s.cfg.watchdogLimit ≠ some 0) (b : Bytes4) :
    (s.withFetchSlot b).CanFetch :=
  (canFetch_iff _).mpr ⟨rfl, watchdogExpired_withFetchSlot hw b, fetchSlot_isSlot s⟩

theorem decodeTableWord_eq_some_iff {nbits w : Nat} {i : Instr} :
    decodeTableWord nbits w = some i ↔ decode (slotOfWord nbits w) = .instr i := by
  unfold decodeTableWord
  cases decode (slotOfWord nbits w) with
  | instr j => simp
  | illegal c => simp

/-! A field that names nothing (assumption 9). -/

theorem withReg_of_not_ok {f : RegField} {body : RegId → Out} (h : regFieldOk f = false) :
    withReg f s body = .next (s.faultEntry .illegalOperand) := by
  rcases withReg_cases s f body with ⟨q, rfl, -⟩ | ⟨-, hfault⟩
  · rw [regFieldOk_regField] at h
    cases h
  · exact hfault

/-- Whichever of the two fields names no register, the fault is the same. -/
theorem withReg_withReg_of_not_ok {r q : RegField} {body : RegId → RegId → Out}
    (h : (regFieldOk r && regFieldOk q) = false) :
    (withReg r s fun d => withReg q s fun e => body d e) = .next (s.faultEntry .illegalOperand) := by
  rcases withReg_cases s r fun d => withReg q s fun e => body d e with ⟨d, rfl, hbody⟩ | ⟨-, hfault⟩
  · rw [regFieldOk_regField, Bool.true_and] at h
    exact hbody.trans (withReg_of_not_ok h)
  · exact hfault

theorem withKey_of_not_ok {f : KeyField} {body : Key → Out} (h : keyFieldOk f = false) :
    withKey f s body = .next (s.faultEntry .illegalOperand) := by
  rcases withKey_cases s f body with ⟨k, hk, -⟩ | ⟨-, hfault⟩
  · rw [(keyFieldOk_iff f).mpr ⟨k, hk⟩] at h
    cases h
  · exact hfault

end Sys2Proof.Machine

namespace Sys2Proof.Proofs
open Sys2Proof.Machine

/-- Settles O26: the placed slot reads back as it was placed, at an address that passes the checks. -/
theorem aPlacedWordIsExecutedNext : Obligations.APlacedWordIsExecutedNext :=
  fun _ _ _ _ hm hw hi => ⟨canFetch_withFetchSlot hw _,
    (congrArg decode (slotAt_withFetchSlot hm _)).trans (decodeTableWord_eq_some_iff.mp hi)⟩

/-- Settles O27, by the operand fields an instruction has: none, two registers, one, or a key. -/
theorem anIllFormedTermFaults : Obligations.AnIllFormedTermFaults := by
  intro i s h
  cases i with
  | halt | jmp | clear | color | spra | spri => cases h
  | set | add | sub | mul | div | mod | and | or | xor | ifeq | ifne | iflt | ifle | ifgt | ifge =>
    exact withReg_withReg_of_not_ok h
  | print | seti | addi | rand | ifeqi | ifnei => exact withReg_of_not_ok h
  | key => exact withKey_of_not_ok h

/-- Settles O3: each slot is the encoding of its instruction, and the bitmap's first byte is no opcode. -/
theorem writtenOutWordsDecode : Obligations.WrittenOutWordsDecode :=
  ⟨decode_of_encode_eq rfl rfl, decode_of_encode_eq rfl rfl, decode_of_encode_eq rfl rfl,
    decode_of_encode_eq rfl rfl, decode_of_encode_eq rfl rfl, decode_of_encode_eq rfl rfl,
    decode_of_encode_eq rfl rfl, decode_of_encode_eq rfl rfl, decode_eq_opcode_iff.mpr (by decide)⟩

end Sys2Proof.Proofs
end
